-- ==== Sys2Proof/Word.lean ====
section
/-! DEFINITION. The word types of HUFFCORE and the entries of its arrays, with the widths of 00_scope.md rule R10
and 20_memory.md rule R60. Everything is unsigned (R12), so `BitVec` arithmetic is the plain one. -/

namespace Sys2Proof

/-- A command word, `CMDW` = 48 bits (30_encoding.md R80). -/
abbrev CmdWord := BitVec 48
/-- A response word, `RSPW` = 48 bits (30_encoding.md R82). -/
abbrev RspWord := BitVec 48
/-- The payload of a response, 40 bits (30_encoding.md R82). -/
abbrev Payload := BitVec 40
/-- A symbol, one byte value: `SW` = 8 bits (00_scope.md R10). -/
abbrev Sym := BitVec 8
/-- An occurrence count, `CW` = 32 bits (00_scope.md R10, 10_state.md R23). -/
abbrev Count := BitVec 32
/-- A node weight, `WW` = 40 bits (00_scope.md R10). -/
abbrev Weight := BitVec 40
/-- A node index, `IW` = 9 bits (00_scope.md R10). -/
abbrev NodeIx := BitVec 9
/-- A code's digits, `BW` = 256 bits, digit `k` at bit `k` (00_scope.md R10, 20_memory.md R62). -/
abbrev Digits := BitVec 256
/-- A code's length, `LW` = 8 bits (00_scope.md R10). -/
abbrev CodeLen := BitVec 8
/-- The chunk number of `RDCB`, 3 bits (30_encoding.md R81). -/
abbrev Chunk := BitVec 3

/-- The variant tag of a node, 1 bit: 0 for a leaf, 1 for an internal node (10_state.md R24). -/
inductive NodeTag where
  | leaf
  | internal
  deriving DecidableEq, Repr, Inhabited

/-- One entry of `NODE`, its five fields as in the table of 10_state.md R24. -/
structure Node where
  tag : NodeTag
  sym : Sym
  w   : Weight
  l   : NodeIx
  r   : NodeIx
  deriving DecidableEq, Repr, Inhabited

/-- One entry of `CODE`, its three fields as in 10_state.md R25. -/
structure CodeEntry where
  valid : Bool
  len   : CodeLen
  bits  : Digits
  deriving DecidableEq, Repr, Inhabited

end Sys2Proof
end

