-- ==== Sys2Proof/Config.lean ====
section
/-! DEFINITION. What is fixed for the machine (the parameters of 00_scope.md rule R10) and its one free value. -/

namespace Sys2Proof

/-- `NSYM`: the alphabet size, 2^SW (R10). -/
def Config.nsym : Nat := 256
/-- `NNODE_MAX`: the entries of the node arena, 2 * NSYM - 1 (R10). -/
def Config.nodeMax : Nat := 511
/-- `LEN_MAX`: the longest code in bits, NSYM - 1 (R10). -/
def Config.lenMax : Nat := 255
/-- The largest occurrence count, 2^CW - 1 (R10, R15 (a)). -/
def Config.countMax : Count := 0xFFFFFFFF

/-- What entry `i` of `NODE` holds while no `BUILD` has written it: unspecified (10_state.md R24, R37;
93_implementation_defined.md V1), so a FREE VALUE. No command reads it in a state a run can reach.
DESIGN CHOICE (notes/assumptions/3.md), safe. -/
opaque Config.unspecifiedNode : Nat → Node

end Sys2Proof
end

