-- ==== Sys2Proof/Syntax.lean ====
section
/-! DEFINITION. The 15 commands as data (30_encoding.md R84), one constructor for each row of spec/opcode_table.json,
and the source text's commands and pseudo-commands (R89, R90). -/

namespace Sys2Proof

/-- A command, its operands the fields of 30_encoding.md R81: each operand's type is exactly its field. -/
inductive Instr where
  | nop
  | clr
  | cnt (sym : Sym)
  | setf (sym : Sym) (count : Count)
  | build
  | derive
  | enc (sym : Sym)
  | dbit (bit : Bool)
  | dend
  | rdst
  | rdf (sym : Sym)
  | rdnl (idx : NodeIx)
  | rdnw (idx : NodeIx)
  | rdcl (sym : Sym)
  | rdcb (sym : Sym) (k : Chunk)
  deriving DecidableEq, Repr

/-- The 15 mnemonics of a source line (30_encoding.md R89). -/
inductive Mnemonic where
  | nop | clr | cnt | setf | build | derive | enc | dbit | dend | rdst | rdf | rdnl | rdnw | rdcl | rdcb
  deriving DecidableEq, Repr

/-- An operand of a source line: a number, or a one-character literal in double quotes (30_encoding.md R89). -/
inductive SrcOperand where
  | num (n : Nat)
  | chr (c : Char)
  deriving DecidableEq, Repr

/-- A command of a source line: a mnemonic and its operands in order (30_encoding.md R89). -/
structure SrcCmd where
  mnemonic : Mnemonic
  operands : List SrcOperand
  deriving DecidableEq, Repr

/-- The five pseudo-commands of 30_encoding.md R90. -/
inductive PseudoCmd where
  | counts (text : List Sym)
  | encs (text : List Sym)
  | decs (bits : List Bool)
  | mktree (text : List Sym)
  | loadf (entries : List (Sym × Count))
  deriving DecidableEq, Repr

end Sys2Proof
end

