-- ==== Sys2Proof/WellFormed.lean ====
section
/-! DEFINITION. Which source commands are well formed (30_encoding.md R81, R89). An `Instr` needs no check: its
operands' types are the fields of R81, so every term of `Instr` is a command the encoding can spell. -/

namespace Sys2Proof

/-- The operand lists of 30_encoding.md R81 and R89. -/
inductive OperandShape where
  | nothing | sym | symCount | bit | idx | symChunk
  deriving DecidableEq, Repr

/-- The operands each mnemonic takes, in source order (30_encoding.md R89). -/
def Mnemonic.shape : Mnemonic → OperandShape
  | .nop => .nothing
  | .clr => .nothing
  | .cnt => .sym
  | .setf => .symCount
  | .build => .nothing
  | .derive => .nothing
  | .enc => .sym
  | .dbit => .bit
  | .dend => .nothing
  | .rdst => .nothing
  | .rdf => .sym
  | .rdnl => .idx
  | .rdnw => .idx
  | .rdcl => .sym
  | .rdcb => .symChunk

/-- A `sym` operand: a number 0 to 255 or a one-character ASCII literal (R89). -/
def SrcOperand.isSym : SrcOperand → Bool
  | .num n => decide (n < 256)
  | .chr c => decide (c.toNat < 128)

/-- A number below `bound`: the operands other than `sym` are numbers (R89). -/
def SrcOperand.isBelow (bound : Nat) : SrcOperand → Bool
  | .num n => decide (n < bound)
  | .chr _ => false

/-- Does the operand list have this shape, each operand within its field (R81)? -/
def OperandShape.accepts : OperandShape → List SrcOperand → Bool
  | .nothing, [] => true
  | .sym, [a] => a.isSym
  | .symCount, [a, d] => a.isSym && d.isBelow (2 ^ 32)
  | .bit, [d] => d.isBelow 2
  | .idx, [d] => d.isBelow 512
  | .symChunk, [a, d] => a.isSym && d.isBelow 8
  | _, _ => false

/-- A well-formed source command: the right number of operands, each within its field (R81, R89). -/
def SrcCmd.wf (c : SrcCmd) : Bool := c.mnemonic.shape.accepts c.operands

end Sys2Proof
end

