-- ==== Sys2Proof/Decode.lean ====
section
/-! DEFINITION. From a 48-bit command word to a command, total, and back (30_encoding.md R80 to R88). -/

namespace Sys2Proof

/-- Why a word spells no command (30_encoding.md R86). Both are answered with status `ILLEGAL`. -/
inductive IllegalWord where
  | undefinedOpcode (op : BitVec 8)
  | reservedBitSet (op : BitVec 8)
  deriving DecidableEq, Repr

/-- Field `OP`, bits 47:40 (R80). -/
def opField (w : CmdWord) : BitVec 8 := w.extractLsb' 40 8
/-- Field `A`, bits 39:32 (R80). -/
def aField (w : CmdWord) : BitVec 8 := w.extractLsb' 32 8
/-- Field `D`, bits 31:0 (R80). -/
def dField (w : CmdWord) : BitVec 32 := w.extractLsb' 0 32

/-- `i` if the reserved bits are 0, else the word is illegal (R85). -/
def ifReservedZero (op : BitVec 8) (zero : Bool) (i : Instr) : Except IllegalWord Instr :=
  if zero then .ok i else .error (.reservedBitSet op)

/-- The command spelled by the fields `OP`, `A`, `D` (R81, R84, R85, R86). -/
def decodeFields (op a : BitVec 8) (d : BitVec 32) : Except IllegalWord Instr :=
  match op.toNat with
  | 0x00 => ifReservedZero op (a == 0 && d == 0) .nop
  | 0x01 => ifReservedZero op (a == 0 && d == 0) .clr
  | 0x02 => ifReservedZero op (d == 0) (.cnt a)
  | 0x03 => .ok (.setf a d)
  | 0x04 => ifReservedZero op (a == 0 && d == 0) .build
  | 0x05 => ifReservedZero op (a == 0 && d == 0) .derive
  | 0x06 => ifReservedZero op (d == 0) (.enc a)
  | 0x07 => ifReservedZero op (a == 0 && d.extractLsb' 1 31 == 0) (.dbit (d.getLsbD 0))
  | 0x08 => ifReservedZero op (a == 0 && d == 0) .dend
  | 0x10 => ifReservedZero op (a == 0 && d == 0) .rdst
  | 0x11 => ifReservedZero op (d == 0) (.rdf a)
  | 0x12 => ifReservedZero op (a == 0 && d.extractLsb' 9 23 == 0) (.rdnl (d.extractLsb' 0 9))
  | 0x13 => ifReservedZero op (a == 0 && d.extractLsb' 9 23 == 0) (.rdnw (d.extractLsb' 0 9))
  | 0x14 => ifReservedZero op (d == 0) (.rdcl a)
  | 0x15 => ifReservedZero op (d.extractLsb' 3 29 == 0) (.rdcb a (d.extractLsb' 0 3))
  | _ => .error (.undefinedOpcode op)

/-- Decoding: the word alone decides, never the state (R86, R88). -/
def decode (w : CmdWord) : Except IllegalWord Instr :=
  decodeFields (opField w) (aField w) (dField w)

/-- `cmd = {OP, A, D}` (R80). -/
def joinFields (op a : BitVec 8) (d : BitVec 32) : CmdWord := op ++ a ++ d

/-- The opcode of a command (R84). -/
def Instr.opcode : Instr → BitVec 8
  | .nop => 0x00
  | .clr => 0x01
  | .cnt _ => 0x02
  | .setf _ _ => 0x03
  | .build => 0x04
  | .derive => 0x05
  | .enc _ => 0x06
  | .dbit _ => 0x07
  | .dend => 0x08
  | .rdst => 0x10
  | .rdf _ => 0x11
  | .rdnl _ => 0x12
  | .rdnw _ => 0x13
  | .rdcl _ => 0x14
  | .rdcb _ _ => 0x15

/-- Field `A` of a command, 0 where reserved (R81, R85). -/
def Instr.aOperand : Instr → BitVec 8
  | .nop => 0
  | .clr => 0
  | .cnt sym => sym
  | .setf sym _ => sym
  | .build => 0
  | .derive => 0
  | .enc sym => sym
  | .dbit _ => 0
  | .dend => 0
  | .rdst => 0
  | .rdf sym => sym
  | .rdnl _ => 0
  | .rdnw _ => 0
  | .rdcl sym => sym
  | .rdcb sym _ => sym

/-- Field `D` of a command, 0 where reserved (R81, R85). -/
def Instr.dOperand : Instr → BitVec 32
  | .nop => 0
  | .clr => 0
  | .cnt _ => 0
  | .setf _ count => count
  | .build => 0
  | .derive => 0
  | .enc _ => 0
  | .dbit bit => (BitVec.ofBool bit).setWidth 32
  | .dend => 0
  | .rdst => 0
  | .rdf _ => 0
  | .rdnl idx => idx.setWidth 32
  | .rdnw idx => idx.setWidth 32
  | .rdcl _ => 0
  | .rdcb _ k => k.setWidth 32

/-- The command word of a command (R80, R81, R84). -/
def encode (i : Instr) : CmdWord := joinFields i.opcode i.aOperand i.dOperand

/-- One row of the opcode map: a word `w` spells the command exactly when `w & mask = match` (R84). -/
structure OpcodeRow where
  mnemonic : String
  pattern  : CmdWord
  mask     : CmdWord
  deriving DecidableEq, Repr

/-- The table of 30_encoding.md R84, columns mnemonic, match, mask. -/
def opcodeRows : List OpcodeRow :=
  [⟨"NOP", 0x000000000000, 0xFFFFFFFFFFFF⟩,
   ⟨"CLR", 0x010000000000, 0xFFFFFFFFFFFF⟩,
   ⟨"CNT", 0x020000000000, 0xFF00FFFFFFFF⟩,
   ⟨"SETF", 0x030000000000, 0xFF0000000000⟩,
   ⟨"BUILD", 0x040000000000, 0xFFFFFFFFFFFF⟩,
   ⟨"DERIVE", 0x050000000000, 0xFFFFFFFFFFFF⟩,
   ⟨"ENC", 0x060000000000, 0xFF00FFFFFFFF⟩,
   ⟨"DBIT", 0x070000000000, 0xFFFFFFFFFFFE⟩,
   ⟨"DEND", 0x080000000000, 0xFFFFFFFFFFFF⟩,
   ⟨"RDST", 0x100000000000, 0xFFFFFFFFFFFF⟩,
   ⟨"RDF", 0x110000000000, 0xFF00FFFFFFFF⟩,
   ⟨"RDNL", 0x120000000000, 0xFFFFFFFFFE00⟩,
   ⟨"RDNW", 0x130000000000, 0xFFFFFFFFFE00⟩,
   ⟨"RDCL", 0x140000000000, 0xFF00FFFFFFFF⟩,
   ⟨"RDCB", 0x150000000000, 0xFF00FFFFFFF8⟩]

/-- The mnemonic of a command, as the table spells it (R84). -/
def Instr.mnemonic : Instr → String
  | .nop => "NOP"
  | .clr => "CLR"
  | .cnt _ => "CNT"
  | .setf _ _ => "SETF"
  | .build => "BUILD"
  | .derive => "DERIVE"
  | .enc _ => "ENC"
  | .dbit _ => "DBIT"
  | .dend => "DEND"
  | .rdst => "RDST"
  | .rdf _ => "RDF"
  | .rdnl _ => "RDNL"
  | .rdnw _ => "RDNW"
  | .rdcl _ => "RDCL"
  | .rdcb _ _ => "RDCB"

/-- Does the word match the row (R84)? -/
def OpcodeRow.accepts (row : OpcodeRow) (w : CmdWord) : Bool := w &&& row.mask == row.pattern

/-- The command word whose bits are `w`, numbered as spec/opcode_table.json numbers them; bits from `nbits` up are 0. -/
def tableWord (nbits w : Nat) : CmdWord := BitVec.ofNat 48 (w % 2 ^ nbits)

/-- What the decoder reads from that word. -/
def decodeTableWord (nbits w : Nat) : Option Instr := (decode (tableWord nbits w)).toOption

end Sys2Proof
end

