-- ==== Sys2Proof/Machine/State.lean ====
section
/-! DEFINITION. The state of HUFFCORE (10_state.md) with its ports (30_encoding.md R91), as plain data, and the state
after reset. -/

namespace Sys2Proof.Machine

/-- Entries of an array, by index, strictly rising, none equal to what an unlisted index reads as
(notes/assumptions/5.md). -/
abbrev Cells (α : Type) := List (Nat × α)

/-- The status of a response (60_exceptions.md R170). Codes 8 to 15 are never produced and have no name. -/
inductive Status where
  | ok | emptyInput | unknownSymbol | truncatedStream | illegal | noTree | range | overflow
  deriving DecidableEq, Repr

/-- What the host does next (00_scope.md R8, R9): each but `reset` is one transfer, for which the host waits.
DESIGN CHOICE (notes/assumptions/1.md), safe. -/
inductive HostAction where
  /-- offers a command word until it is accepted -/
  | offerCmd (w : CmdWord)
  /-- holds `eo_ready` until one EO bit is transferred -/
  | takeEo
  /-- holds `rsp_ready` until the response is transferred -/
  | takeRsp
  /-- applies `rst` (70_reset_and_hazards.md R190) -/
  | reset
  deriving DecidableEq, Repr

/-- One transfer out of the block (00_scope.md R8). -/
inductive PortOut where
  | eo (bit : Bool)
  | rsp (w : RspWord)
  deriving DecidableEq, Repr

/-- Everything the spec gives the machine (10_state.md R22), the output ports (R36, R37), and the model's own two
fields `hostIn` and `outLog` (notes/assumptions/1.md and 2.md). -/
structure State where
  /-- `FREQ`, by byte value (10_state.md R23); an unlisted count is 0. -/
  freq : Cells Count
  /-- `NODE`, entries 0 up to the highest one written so far (10_state.md R24); an entry beyond is unspecified. -/
  node : List Node
  /-- `CODE`, by byte value (10_state.md R25); an unlisted entry is invalid. -/
  code : Cells CodeEntry
  /-- `TV` (10_state.md R26). -/
  tv : Bool
  /-- `CV` (10_state.md R27). -/
  cv : Bool
  /-- `NLEAF` (10_state.md R28). -/
  nleaf : NodeIx
  /-- `ROOT` (10_state.md R28). -/
  root : NodeIx
  /-- `MID` (10_state.md R29). -/
  mid : Bool
  /-- `CUR` (10_state.md R29). -/
  cur : NodeIx
  /-- `LASTERR` (10_state.md R34). -/
  lastErr : BitVec 4
  /-- The EO bits of the command in flight not yet accepted, the next one first (10_state.md R36, 43_encoder.md R141;
  notes/assumptions/15.md). -/
  eoPort : List Bool
  /-- The response offered, not yet accepted (30_encoding.md R82, R91). -/
  rspPort : Option RspWord
  /-- The model's own: what the host does next, in order (00_scope.md R8). -/
  hostIn : List HostAction
  /-- The model's own: what was transferred out so far, oldest first (00_scope.md R8). -/
  outLog : List PortOut
  deriving DecidableEq, Repr

/-- The reasons the machine stops with a fault: NONE. "There are no fatal/unrecoverable conditions inside the core
itself" (60_exceptions.md R175) and `step` is total in every state (00_scope.md R6): a failure is a response with a
non-zero status, and the machine goes on. DEDUCED (notes/assumptions/8.md), safe. -/
inductive Fault where
  deriving DecidableEq, Repr

/-- The reasons the model has no answer. -/
inductive Refusal where
  /-- Raised by `exec` for an instruction that has no meaning yet; no arm of `exec` raises it now. Safe. -/
  | notModelled (mnemonic : String)
  deriving DecidableEq, Repr

/-- The state after reset (10_state.md R37), where a run starts (DEDUCED, notes/assumptions/12.md). `NODE` is
unspecified: no entry is written. `hostIn` and `outLog` are empty: DESIGN CHOICE (notes/assumptions/2.md, 4.md), safe. -/
def State.reset : State where
  freq := []
  node := []
  code := []
  tv := false
  cv := false
  nleaf := 0
  root := 0
  mid := false
  cur := 0
  lastErr := 0
  eoPort := []
  rspPort := none
  hostIn := []
  outLog := []

end Sys2Proof.Machine
end

