-- ==== Sys2Proof/Machine/Ops.lean ====
section
/-! DEFINITION. The named operations over the arrays and registers, the response (30_encoding.md R82), and a failure,
the machine's one exception (60_exceptions.md R174). -/

namespace Sys2Proof.Machine

/-! ## The arrays as lists of cells -/

/-- What index `a` holds; `dflt` is what an unlisted index reads as. -/
def cellRead {α : Type} (dflt : α) : Cells α → Nat → α
  | [], _ => dflt
  | (k, v) :: rest, a => if a = k then v else cellRead dflt rest a

/-- Lists index `a` with value `v`, indexes rising. -/
def cellInsert {α : Type} (a : Nat) (v : α) : Cells α → Cells α
  | [] => [(a, v)]
  | (k, w) :: rest => if a < k then (a, v) :: (k, w) :: rest else (k, w) :: cellInsert a v rest

/-- Writes `v` at index `a`; a cell that would hold `dflt` is not listed. -/
def cellWrite {α : Type} [DecidableEq α] (dflt : α) (m : Cells α) (a : Nat) (v : α) : Cells α :=
  if v = dflt then m.filter (fun c => c.1 ≠ a) else cellInsert a v (m.filter (fun c => c.1 ≠ a))

/-- The canonical form: indexes below `size` and strictly rising, no entry equal to what an unlisted index reads as. -/
abbrev Canonical {α : Type} [DecidableEq α] (dflt : α) (size : Nat) (m : Cells α) : Prop :=
  m.Pairwise (fun c d => c.1 < d.1) ∧ ∀ c ∈ m, c.1 < size ∧ c.2 ≠ dflt

/-! ## `FREQ` (10_state.md R23) -/

/-- What an unlisted entry of `FREQ` reads as: its reset value (R37). -/
def freqUnlisted : Count := 0

/-- `FREQ[b]`. -/
def State.freqAt (s : State) (b : Nat) : Count := cellRead freqUnlisted s.freq b

/-- `FREQ[b] <- c`. -/
def State.setFreq (s : State) (b : Nat) (c : Count) : State :=
  { s with freq := cellWrite freqUnlisted s.freq b c }

/-- `for s in 0..255: FREQ[s] <- 0`. -/
def State.clearFreq (s : State) : State := { s with freq := [] }

/-! ## `CODE` (10_state.md R25) -/

/-- What an unlisted entry of `CODE` reads as: its reset value, the invalid entry (R25, R37). -/
def codeUnlisted : CodeEntry := { valid := false, len := 0, bits := 0 }

/-- `CODE[b]`. -/
def State.codeAt (s : State) (b : Nat) : CodeEntry := cellRead codeUnlisted s.code b

/-- `for s in 0..255: CODE[s] <- { VALID=0, LEN=0, BITS=0 }`. -/
def State.clearCode (s : State) : State := { s with code := [] }

/-! ## `NODE` (10_state.md R24) -/

/-- Entry `i` of an arena; an entry not written is unspecified. -/
def nodeIn (nodes : List Node) (i : Nat) : Node := (nodes[i]?).getD (Config.unspecifiedNode i)

/-- `NODE[i]`. -/
def State.nodeAt (s : State) (i : Nat) : Node := nodeIn s.node i

/-- Writes entries 0 up to `nodes.length - 1`; the entries above keep what they held. -/
def State.setNodes (s : State) (nodes : List Node) : State :=
  { s with node := nodes ++ s.node.drop nodes.length }

/-- `NNODES = 2*NLEAF - 1`, a derived quantity, 0 while there is no tree (10_state.md R28). -/
def State.nnodes (s : State) : Nat := 2 * s.nleaf.toNat - 1

/-- The arrays are in canonical form and `NODE` has no more entries than the arena (20_memory.md R60). -/
abbrev Memory.wf (s : State) : Prop :=
  Canonical freqUnlisted Config.nsym s.freq ∧ Canonical codeUnlisted Config.nsym s.code ∧
    s.node.length ≤ Config.nodeMax

/-! ## The decoder's walk (10_state.md R29) -/

/-- `MID <- 0; CUR <- 0`: the walk is `AT_ROOT`. -/
def State.walkToRoot (s : State) : State := { s with mid := false, cur := 0 }

/-- `MID <- 1; CUR <- i`: the walk is `AT_INTERNAL(i)`. -/
def State.walkTo (s : State) (i : NodeIx) : State := { s with mid := true, cur := i }

/-! ## Responses and failures -/

/-- The number of a status (60_exceptions.md R170). -/
def Status.code : Status → BitVec 4
  | .ok => 0
  | .emptyInput => 1
  | .unknownSymbol => 2
  | .truncatedStream => 3
  | .illegal => 4
  | .noTree => 5
  | .range => 6
  | .overflow => 7

/-- A response word: STATUS in 47:44, 0 in 43:40, PAYLOAD in 39:0 (30_encoding.md R82). -/
def rspWord (st : Status) (payload : Payload) : RspWord := st.code ++ (0 : BitVec 4) ++ payload

/-- The response is offered on the response port (30_encoding.md R91). -/
def State.answer (s : State) (st : Status) (payload : Payload) : State :=
  { s with rspPort := some (rspWord st payload) }

/-- `respond(OK, payload)`: the command ends; nothing else changes, `LASTERR` neither (00_scope.md R13,
60_exceptions.md R178). -/
def respond (payload : Payload) (s : State) : Host.Outcome State Fault Refusal :=
  .next (s.answer .ok payload)

/-- `raise st`, the one exception entry of this machine: `LASTERR <- st`, payload 0, no EO bit, nothing else
(60_exceptions.md R174). There is no return: the next command simply runs (R175). -/
def raise (st : Status) (s : State) : Host.Outcome State Fault Refusal :=
  .next ({ s with lastErr := st.code }.answer st 0)

/-- `emit_eo` of each bit, in order: appended to the EO bits waiting (00_scope.md R13, 43_encoder.md R141). -/
def State.emitEo (s : State) (bits : List Bool) : State := { s with eoPort := s.eoPort ++ bits }

end Sys2Proof.Machine
end

