-- ==== Sys2Proof/Machine/Flags.lean ====
section
/-! DEFINITION. The flags: the bits of the `STATUS` view and the groups of them the commands write
(10_state.md R26 to R35). -/

namespace Sys2Proof.Machine

/-- The bit of a node's `TAG` (10_state.md R24). -/
def tagBit : NodeTag → BitVec 1
  | .leaf => 0
  | .internal => 1

/-- `DEGEN`: 1 exactly when `TV = 1` and `NLEAF = 1`; computed, not stored (10_state.md R35). -/
def State.degen (s : State) : Bool := s.tv && s.nleaf == 1

/-- The `STATUS` view, `{ 0b00000, CUR, ROOT, NLEAF, LASTERR, DEGEN, MID, CV, TV }` (10_state.md R35,
45_control.md R162). -/
def State.statusView (s : State) : Payload :=
  (0 : BitVec 5) ++ s.cur ++ s.root ++ s.nleaf ++ s.lastErr ++ BitVec.ofBool s.degen ++ BitVec.ofBool s.mid ++
    BitVec.ofBool s.cv ++ BitVec.ofBool s.tv

/-- The tree of `n` leaves is in use: `NLEAF <- n; ROOT <- 2*n - 2; TV <- 1` (41_tree_builder.md R112). -/
def State.useTree (s : State) (n : Nat) : State :=
  { s with tv := true, nleaf := BitVec.ofNat 9 n, root := BitVec.ofNat 9 (2 * n - 2) }

/-- The tree is released: `TV <- 0; NLEAF <- 0; ROOT <- 0` (45_control.md R161). -/
def State.releaseTree (s : State) : State := { s with tv := false, nleaf := 0, root := 0 }

/-- The table is emptied: `CV <- 0` and all entries invalid (10_state.md R27). -/
def State.releaseCode (s : State) : State := { s.clearCode with cv := false }

/-- The failure of a command that reads a node, if any, in the order of 60_exceptions.md R173: `NOTREE` before
`RANGE` (41_tree_builder.md R117, R118). -/
def State.nodeReadFailure (s : State) (idx : NodeIx) : Option Status :=
  if s.tv = false then some .noTree else if s.nnodes ≤ idx.toNat then some .range else none

end Sys2Proof.Machine
end

