-- ==== Sys2Proof/Machine/Operands.lean ====
section
/-! DEFINITION. What a command reads through its operands, and the payloads of 30_encoding.md R83. No operand is
scaled, shifted or sign-extended (R81): an array index is the operand's value. -/

namespace Sys2Proof.Machine

/-- `FREQ[sym]`. -/
def State.count (s : State) (sym : Sym) : Count := s.freqAt sym.toNat

/-- `CODE[sym]`. -/
def State.entry (s : State) (sym : Sym) : CodeEntry := s.codeAt sym.toNat

/-- `BUILD`: `[8:0] = NLEAF`, `[17:9] = ROOT`. -/
def buildPayload (root nleaf : NodeIx) : Payload := (0 : BitVec 22) ++ root ++ nleaf

/-- `ENC`: `[7:0] = LEN`. -/
def lenPayload (len : CodeLen) : Payload := len.setWidth 40

/-- `DBIT` that reaches a leaf: `[8] = EMIT = 1`, `[7:0] = SYM`. -/
def emitPayload (sym : Sym) : Payload := (0 : BitVec 31) ++ (1 : BitVec 1) ++ sym

/-- `RDF`: `[31:0] = FREQ[sym]`. -/
def countPayload (c : Count) : Payload := c.setWidth 40

/-- `RDNL`: `[0] = TAG`, `[8:1] = SYM`, `[17:9] = L`, `[26:18] = R`. -/
def linksPayload (n : Node) : Payload := (0 : BitVec 13) ++ n.r ++ n.l ++ n.sym ++ tagBit n.tag

/-- `RDCL`: `[0] = VALID`, `[8:1] = LEN`. -/
def codeLenPayload (e : CodeEntry) : Payload := (0 : BitVec 31) ++ e.len ++ BitVec.ofBool e.valid

/-- `RDCB`: `[31:0] = BITS[32*k + 31 : 32*k]` (20_memory.md R62). -/
def chunkPayload (e : CodeEntry) (k : Chunk) : Payload := (e.bits.extractLsb' (32 * k.toNat) 32).setWidth 40

/-- The digits of a code, the one nearest the root first: `BITS[0]` to `BITS[LEN-1]` (20_memory.md R62, R63). -/
def codeDigits (e : CodeEntry) : List Bool := (List.range e.len.toNat).map e.bits.getLsbD

end Sys2Proof.Machine
end

