-- ==== Sys2Proof/Machine/CodeTable.lean ====
section
/-! DEFINITION. The code table generator: DERIVE, RDCL, RDCB (42_code_table.md). -/

namespace Sys2Proof.Machine

/-- `CODE[SYM] <- { VALID=1, LEN=len, BITS=bits }`. -/
def setCode (code : Cells CodeEntry) (sym : Sym) (len : Nat) (bits : Digits) : Cells CodeEntry :=
  cellWrite codeUnlisted code sym.toNat { valid := true, len := BitVec.ofNat 8 len, bits := bits }

/-- `visit(i, len, bits)` of R130: left edge digit 0, right edge digit 1 at position `len`. The first argument bounds the
depth; the trees of 10_state.md R30 never reach it: DESIGN CHOICE (notes/assumptions/6.md), safe. -/
def visit (nodes : List Node) : Nat → Nat → Nat → Digits → Cells CodeEntry → Cells CodeEntry
  | 0, _, _, _, code => code
  | depth + 1, i, len, bits, code =>
    match (nodeIn nodes i).tag with
    | .leaf => setCode code (nodeIn nodes i).sym len bits
    | .internal =>
      visit nodes depth (nodeIn nodes i).r.toNat (len + 1) (bits ||| ((1 : Digits) <<< len))
        (visit nodes depth (nodeIn nodes i).l.toNat (len + 1) bits code)

/-- The table of the tree in `NODE`: the root paths, or the one-bit code "0" of the degenerate tree (R131, R132). -/
def State.derivedCode (s : State) : Cells CodeEntry :=
  if s.nleaf = 1 then setCode [] (s.nodeAt 0).sym 1 0
  else visit s.node Config.nodeMax s.root.toNat 0 0 []

/-- DERIVE (R130): the whole table is written, `CV <- 1`; or `NOTREE`. -/
def execDerive (s : State) : Host.Outcome State Fault Refusal :=
  if s.tv = false then raise .noTree s
  else respond 0 { s with code := s.derivedCode, cv := true }

/-- RDCL sym (R133). -/
def execRdcl (sym : Sym) (s : State) : Host.Outcome State Fault Refusal :=
  respond (codeLenPayload (s.entry sym)) s

/-- RDCB sym, k (R134). -/
def execRdcb (sym : Sym) (k : Chunk) (s : State) : Host.Outcome State Fault Refusal :=
  respond (chunkPayload (s.entry sym) k) s

end Sys2Proof.Machine
end

