-- ==== Sys2Proof/Machine/Control.lean ====
section
/-! DEFINITION. Control: NOP, CLR, RDST (45_control.md). -/

namespace Sys2Proof.Machine

/-- NOP (R160). -/
def execNop (s : State) : Host.Outcome State Fault Refusal := respond 0 s

/-- CLR (R161): counts, table, tree, walk and `LASTERR` to their reset values; `NODE` is not written. -/
def execClr (s : State) : Host.Outcome State Fault Refusal :=
  respond 0 { s.clearFreq.releaseCode.releaseTree.walkToRoot with lastErr := 0 }

/-- RDST (R162). -/
def execRdst (s : State) : Host.Outcome State Fault Refusal := respond s.statusView s

end Sys2Proof.Machine
end

