-- ==== Sys2Proof/Machine/Decoder.lean ====
section
/-! DEFINITION. The bitstream decoder: DBIT, DEND (44_decoder.md). -/

namespace Sys2Proof.Machine

/-- The node the next bit is applied to: `CUR` in mid-walk, `ROOT` otherwise (R150). -/
def State.here (s : State) : NodeIx := if s.mid then s.cur else s.root

/-- The child of node `i` on the edge of a bit: left for 0, right for 1 (R150). -/
def childOf (n : Node) (bit : Bool) : NodeIx := if bit then n.r else n.l

/-- DBIT bit (R151, R152): one step of the walk; at a leaf the symbol is emitted and the walk is at the root; the
degenerate tree emits on every bit; or `NOTREE`. -/
def execDbit (bit : Bool) (s : State) : Host.Outcome State Fault Refusal :=
  if s.tv = false then raise .noTree s
  else if s.nleaf = 1 then respond (emitPayload (s.nodeAt 0).sym) s
  else
    let child := childOf (s.nodeAt s.here.toNat) bit
    match (s.nodeAt child.toNat).tag with
    | .leaf => respond (emitPayload (s.nodeAt child.toNat).sym) s.walkToRoot
    | .internal => respond 0 (s.walkTo child)

/-- DEND (R153): `OK` at the root; in mid-walk `TRUNCATED_STREAM`, which also puts the walk back at the root;
`NOTREE` before both. -/
def execDend (s : State) : Host.Outcome State Fault Refusal :=
  if s.tv = false then raise .noTree s
  else if s.mid then raise .truncatedStream s.walkToRoot
  else respond 0 s

end Sys2Proof.Machine
end

