-- ==== Sys2Proof/Machine/Encoder.lean ====
section
/-! DEFINITION. The bitstream encoder: ENC (43_encoder.md). -/

namespace Sys2Proof.Machine

/-- ENC sym (R140, R141): the code's digits on the EO port and its length as the payload; or `UNKNOWN_SYMBOL`. -/
def execEnc (sym : Sym) (s : State) : Host.Outcome State Fault Refusal :=
  if (s.entry sym).valid = false then raise .unknownSymbol s
  else respond (lenPayload (s.entry sym).len) (s.emitEo (codeDigits (s.entry sym)))

end Sys2Proof.Machine
end

