-- ==== Sys2Proof/Machine/Frequency.lean ====
section
/-! DEFINITION. The frequency counter: CNT, SETF, RDF (40_frequency_counter.md). -/

namespace Sys2Proof.Machine

/-- CNT sym (R100): one more occurrence, or `OVERFLOW` and the count kept. -/
def execCnt (sym : Sym) (s : State) : Host.Outcome State Fault Refusal :=
  if s.count sym = Config.countMax then raise .overflow s
  else respond 0 (s.setFreq sym.toNat (s.count sym + 1))

/-- SETF sym, count (R101). -/
def execSetf (sym : Sym) (count : Count) (s : State) : Host.Outcome State Fault Refusal :=
  respond 0 (s.setFreq sym.toNat count)

/-- RDF sym (R102). -/
def execRdf (sym : Sym) (s : State) : Host.Outcome State Fault Refusal :=
  respond (countPayload (s.count sym)) s

end Sys2Proof.Machine
end

