-- ==== Sys2Proof/Machine/TreeBuilder.lean ====
section
/-! DEFINITION. The tree builder: BUILD, RDNL, RDNW (41_tree_builder.md). -/

namespace Sys2Proof.Machine

/-- `[ s in 0..255 ascending | FREQ[s] != 0 ]` (R111). -/
def State.present (s : State) : List Nat := (List.range Config.nsym).filter (fun b => s.freqAt b ≠ 0)

/-- The leaf of a byte value and its count (R111); `L`, `R` stored as 0: DEDUCED (notes/assumptions/13.md), safe. -/
def leafNode (b : Nat) (c : Count) : Node :=
  { tag := .leaf, sym := BitVec.ofNat 8 b, w := c.setWidth 40, l := 0, r := 0 }

/-- The leaves, ascending by byte value: the first entries of the arena (R111). -/
def State.leaves (s : State) : List Node := s.present.map (fun b => leafNode b (s.freqAt b))

/-- The total order of the priority collection: `(W, index)`, lexicographic and unsigned (R113). -/
def before (nodes : List Node) (i j : Nat) : Bool :=
  decide ((nodeIn nodes i).w < (nodeIn nodes j).w) ||
    (decide ((nodeIn nodes i).w = (nodeIn nodes j).w) && decide (i < j))

/-- Extracts the smallest index of the collection (R113): it, and the collection without it. The collection as a list of
indexes: DESIGN CHOICE (notes/assumptions/14.md), safe. -/
def extractMin (nodes : List Node) : List Nat → Option (Nat × List Nat)
  | [] => none
  | i :: q =>
    match extractMin nodes q with
    | none => some (i, [])
    | some (m, rest) => if before nodes i m then some (i, q) else some (m, i :: rest)

/-- The node of a merge: the first extracted is the left child, the second the right one (R114); `SYM`
stored as 0: DEDUCED (notes/assumptions/13.md), safe. -/
def mergedNode (nodes : List Node) (a b : Nat) : Node :=
  { tag := .internal, sym := 0, w := (nodeIn nodes a).w + (nodeIn nodes b).w,
    l := BitVec.ofNat 9 a, r := BitVec.ofNat 9 b }

/-- The merge loop of R112, for `rounds` rounds: the arena so far, the collection `q` of indexes. The next node's index
is the arena's length. -/
def mergeRounds : Nat → List Node → List Nat → List Node
  | 0, nodes, _ => nodes
  | rounds + 1, nodes, q =>
    match extractMin nodes q with
    | none => nodes
    | some (a, q₁) =>
      match extractMin nodes q₁ with
      | none => nodes
      | some (b, q₂) => mergeRounds rounds (nodes ++ [mergedNode nodes a b]) (q₂ ++ [nodes.length])

/-- The arena of the tree over these leaves: exactly `n - 1` merges (R112, R115). -/
def buildArena (leaves : List Node) : List Node :=
  mergeRounds (leaves.length - 1) leaves (List.range leaves.length)

/-- BUILD (R112, R115): the tree of the frequency map; the counts are discarded, the table emptied, the walk put back;
or `EMPTY_INPUT` on the empty map. -/
def execBuild (s : State) : Host.Outcome State Fault Refusal :=
  if s.present = [] then raise .emptyInput s
  else
    let t := ((s.setNodes (buildArena s.leaves)).useTree s.present.length).clearFreq.releaseCode.walkToRoot
    respond (buildPayload t.root t.nleaf) t

/-- RDNL idx (R117). -/
def execRdnl (idx : NodeIx) (s : State) : Host.Outcome State Fault Refusal :=
  match s.nodeReadFailure idx with
  | some st => raise st s
  | none => respond (linksPayload (s.nodeAt idx.toNat)) s

/-- RDNW idx (R118). -/
def execRdnw (idx : NodeIx) (s : State) : Host.Outcome State Fault Refusal :=
  match s.nodeReadFailure idx with
  | some st => raise st s
  | none => respond (s.nodeAt idx.toNat).w s

end Sys2Proof.Machine
end

