-- ==== Sys2Proof/Machine/Dispatch.lean ====
section
/-! DEFINITION. What each command does: one arm, one meaning. -/

namespace Sys2Proof.Machine

def exec (i : Instr) (s : State) : Host.Outcome State Fault Refusal :=
  match i with
  | .nop => Sys2Proof.Machine.execNop s
  | .clr => Sys2Proof.Machine.execClr s
  | .cnt sym => Sys2Proof.Machine.execCnt sym s
  | .setf sym count => Sys2Proof.Machine.execSetf sym count s
  | .build => Sys2Proof.Machine.execBuild s
  | .derive => Sys2Proof.Machine.execDerive s
  | .enc sym => Sys2Proof.Machine.execEnc sym s
  | .dbit bit => Sys2Proof.Machine.execDbit bit s
  | .dend => Sys2Proof.Machine.execDend s
  | .rdst => Sys2Proof.Machine.execRdst s
  | .rdf sym => Sys2Proof.Machine.execRdf sym s
  | .rdnl idx => Sys2Proof.Machine.execRdnl idx s
  | .rdnw idx => Sys2Proof.Machine.execRdnw idx s
  | .rdcl sym => Sys2Proof.Machine.execRdcl sym s
  | .rdcb sym k => Sys2Proof.Machine.execRdcb sym k s

end Sys2Proof.Machine
end

