-- ==== Sys2Proof/Machine/Ports.lean ====
section
/-! DEFINITION. The ports (30_encoding.md R91): what they show, and each transfer. Only the order of transfers is
specified, never cycles (70_reset_and_hazards.md R202). -/

namespace Sys2Proof.Machine

/-! ## What the output pins show: functions of two fields, DESIGN CHOICE (notes/assumptions/15.md), safe -/

/-- `eo_valid`: an EO bit is offered (R91, 43_encoder.md R141). -/
def State.eoValid (s : State) : Bool := !s.eoPort.isEmpty

/-- `eo_bit`, while `eo_valid`: the next EO bit (20_memory.md R63). -/
def State.eoBit (s : State) : Option Bool := s.eoPort.head?

/-- `rsp_valid`: the response is offered once all EO bits of its command are transferred (00_scope.md R8). -/
def State.rspValid (s : State) : Bool := s.eoPort.isEmpty && s.rspPort.isSome

/-- `rsp_data`, while `rsp_valid`. -/
def State.rspData (s : State) : Option RspWord := if s.rspValid then s.rspPort else none

/-- `cmd_ready`: 0 from acceptance of a command until its response has been transferred (R91). -/
def State.cmdReady (s : State) : Bool := s.eoPort.isEmpty && s.rspPort.isNone

/-! ## The transfers -/

/-- A command word is executed: the command it spells, or `ILLEGAL`, decided on the word alone before any state is
looked at (30_encoding.md R86, 60_exceptions.md R173). The whole command is one step: DEDUCED (notes/assumptions/11.md),
safe. -/
def acceptWord (w : CmdWord) (s : State) : Host.Outcome State Fault Refusal :=
  match decode w with
  | .ok i => exec i s
  | .error _ => raise .illegal s

/-- The host is done with its first action. -/
def State.hostDone (s : State) : State := { s with hostIn := s.hostIn.tail }

/-- A bit or a word has left the block. -/
def State.log (s : State) (out : PortOut) : State := { s with outLog := s.outLog ++ [out] }

/-- The host offers a word: accepted when `cmd_ready`, else it waits (R91). -/
def offerStep (w : CmdWord) (s : State) : Host.Outcome State Fault Refusal :=
  if s.cmdReady then acceptWord w s.hostDone else .next s

/-- The host accepts an EO bit: the next one is transferred, or the host waits (R91, 43_encoder.md R141). -/
def takeEoStep (s : State) : Host.Outcome State Fault Refusal :=
  match s.eoPort with
  | b :: rest => .next { s.hostDone.log (.eo b) with eoPort := rest }
  | [] => .next s

/-- The host accepts the response: transferred when `rsp_valid`, else the host waits (R91, 70_reset_and_hazards.md R199). -/
def takeRspStep (s : State) : Host.Outcome State Fault Refusal :=
  match s.rspData with
  | some w => .next { s.hostDone.log (.rsp w) with rspPort := none }
  | none => .next s

/-- Reset: all state and both ports to the reset state, a command in flight abandoned; what was transferred stays
transferred (70_reset_and_hazards.md R190, R191). One atomic step: DEDUCED (notes/assumptions/7.md), safe. -/
def resetStep (s : State) : Host.Outcome State Fault Refusal :=
  .next { State.reset with hostIn := s.hostIn.tail, outLog := s.outLog }

end Sys2Proof.Machine
end

