-- ==== Sys2Proof/Machine/Step.lean ====
section
/-! DEFINITION. One step: the host's next action, one transfer or one reset (00_scope.md R8). With no action left the
block idles (60_exceptions.md R179). -/

namespace Sys2Proof.Machine

def step (s : State) : Host.Outcome State Fault Refusal :=
  match s.hostIn with
  | [] => .next s
  | .offerCmd w :: _ => offerStep w s
  | .takeEo :: _ => takeEoStep s
  | .takeRsp :: _ => takeRspStep s
  | .reset :: _ => resetStep s

/-- `s` with the command word `w` (numbered as spec/opcode_table.json numbers it) as what the host offers next, and the
command port ready for it. There is no program memory: a program is what the host delivers (10_state.md R21;
notes/assumptions/4.md). -/
def State.withFetchWord (s : State) (nbits w : Nat) : State :=
  { s with hostIn := .offerCmd (tableWord nbits w) :: s.hostIn, eoPort := [], rspPort := none }

end Sys2Proof.Machine
end

