-- ==== Sys2Proof/Machine/Assembler.lean ====
section
/-! DEFINITION. The host software's side of the command port: one line of source text, the command it spells, and the
expansions of the pseudo-commands (30_encoding.md R89, R90). HUFFCORE itself sees only command words. -/

namespace Sys2Proof.Machine

/-! ## Pseudo-commands (R90) -/

/-- `COUNTS text`: one `CNT` for each byte, in order. -/
def countsCmds (text : List Sym) : List Instr := text.map Instr.cnt

/-- `ENCS text`: one `ENC` for each byte, in order. -/
def encsCmds (text : List Sym) : List Instr := text.map Instr.enc

/-- `DECS bits`: one `DBIT` for each digit, in order, then `DEND`. -/
def decsCmds (bits : List Bool) : List Instr := bits.map Instr.dbit ++ [.dend]

/-- `MKTREE text`: `CLR`, `COUNTS text`, `BUILD`, `DERIVE`. -/
def mktreeCmds (text : List Sym) : List Instr := .clr :: countsCmds text ++ [.build, .derive]

/-- `LOADF entries`: one `SETF` for each, in the order written. -/
def loadfCmds (entries : List (Sym × Count)) : List Instr := entries.map (fun e => .setf e.1 e.2)

/-- The expansion of a pseudo-command into commands (R90). -/
def expand : PseudoCmd → List Instr
  | .counts text => countsCmds text
  | .encs text => encsCmds text
  | .decs bits => decsCmds bits
  | .mktree text => mktreeCmds text
  | .loadf entries => loadfCmds entries

/-! ## Source commands (R89) -/

/-- The value of an operand; a character is its ASCII code. PRESUMED (notes/assumptions/9.md), unsafe. -/
def operandValue : SrcOperand → Nat
  | .num n => n
  | .chr c => c.toNat

/-- The value of the `k`-th operand; every operand is there in a well-formed command. -/
def operandAt (c : SrcCmd) (k : Nat) : Nat := ((c.operands[k]?).map operandValue).getD 0

/-- The command of a well-formed source command, operands in the order `sym`, then the `D` operand (R89). -/
def srcInstr (c : SrcCmd) : Instr :=
  match c.mnemonic with
  | .nop => .nop
  | .clr => .clr
  | .cnt => .cnt (BitVec.ofNat 8 (operandAt c 0))
  | .setf => .setf (BitVec.ofNat 8 (operandAt c 0)) (BitVec.ofNat 32 (operandAt c 1))
  | .build => .build
  | .derive => .derive
  | .enc => .enc (BitVec.ofNat 8 (operandAt c 0))
  | .dbit => .dbit (operandAt c 0 == 1)
  | .dend => .dend
  | .rdst => .rdst
  | .rdf => .rdf (BitVec.ofNat 8 (operandAt c 0))
  | .rdnl => .rdnl (BitVec.ofNat 9 (operandAt c 0))
  | .rdnw => .rdnw (BitVec.ofNat 9 (operandAt c 0))
  | .rdcl => .rdcl (BitVec.ofNat 8 (operandAt c 0))
  | .rdcb => .rdcb (BitVec.ofNat 8 (operandAt c 0)) (BitVec.ofNat 3 (operandAt c 1))

/-- Assembling: the command, or nothing when the source command is not well formed. -/
def assemble (c : SrcCmd) : Option Instr := if c.wf then some (srcInstr c) else none

/-! ## One line of text (R89); what R89 does not say of the text is a DESIGN CHOICE (notes/assumptions/10.md), unsafe -/

/-- The parts of a line. -/
inductive Token where
  | word (letters : List Char)
  | chr (c : Char)
  | comma
  deriving DecidableEq, Repr

/-- The word read so far, its letters in reverse, if there is one. -/
def endWord (letters : List Char) : List Token := if letters = [] then [] else [.word letters.reverse]

/-- The tokens of a line. `;` starts a comment, `->` the expected response, which is no part of the command. -/
def tokens : List Char → List Char → List Token
  | [], letters => endWord letters
  | ';' :: _, letters => endWord letters
  | '-' :: '>' :: _, letters => endWord letters
  | '"' :: c :: '"' :: rest, letters => endWord letters ++ .chr c :: tokens rest []
  | ',' :: rest, letters => endWord letters ++ .comma :: tokens rest []
  | ' ' :: rest, letters => endWord letters ++ tokens rest []
  | c :: rest, letters => tokens rest (c :: letters)

/-- The value of a digit in base `base`. -/
def digitValue (base : Nat) (c : Char) : Option Nat :=
  let v := if '0' ≤ c ∧ c ≤ '9' then c.toNat - 48
    else if 'a' ≤ c ∧ c ≤ 'f' then c.toNat - 87
    else if 'A' ≤ c ∧ c ≤ 'F' then c.toNat - 55 else base
  if v < base then some v else none

/-- The number written by these digits, most significant first, after the digits worth `acc`. -/
def digitsValue (base : Nat) : Nat → List Char → Option Nat
  | acc, [] => some acc
  | acc, c :: rest => (digitValue base c).bind (fun v => digitsValue base (acc * base + v) rest)

/-- A decimal or `0x` hexadecimal number; `_` is a visual separator in hexadecimal (00_scope.md R12). -/
def numberOf : List Char → Option Nat
  | [] => none
  | '0' :: 'x' :: c :: rest => digitsValue 16 0 ((c :: rest).filter (· ≠ '_'))
  | c :: rest => digitsValue 10 0 (c :: rest)

/-- The mnemonic spelled by these letters. -/
def mnemonicOf (letters : List Char) : Option Mnemonic :=
  [("NOP", Mnemonic.nop), ("CLR", .clr), ("CNT", .cnt), ("SETF", .setf), ("BUILD", .build), ("DERIVE", .derive),
    ("ENC", .enc), ("DBIT", .dbit), ("DEND", .dend), ("RDST", .rdst), ("RDF", .rdf), ("RDNL", .rdnl),
    ("RDNW", .rdnw), ("RDCL", .rdcl), ("RDCB", .rdcb)].findSome?
    (fun m => if m.1.toList = letters then some m.2 else none)

/-- Operands separated by commas. -/
def operandsOf : List Token → Option (List SrcOperand)
  | [] => some []
  | [.word n] => (numberOf n).map (fun v => [.num v])
  | [.chr c] => some [.chr c]
  | .word n :: .comma :: rest => (numberOf n).bind (fun v => (operandsOf rest).map (fun os => .num v :: os))
  | .chr c :: .comma :: rest => (operandsOf rest).map (fun os => .chr c :: os)
  | _ => none

/-- The commands of one line: none on a blank or comment line, else one; or no answer when the line spells none. -/
def parseLine (line : String) : Option (List SrcCmd) :=
  match tokens line.toList [] with
  | [] => some []
  | .word m :: rest => (mnemonicOf m).bind (fun n => (operandsOf rest).map (fun os => [⟨n, os⟩]))
  | _ => none

/-- The command words of one line (R89, R80). -/
def assembleLine (line : String) : Option (List CmdWord) :=
  (parseLine line).bind (fun cmds => cmds.mapM (fun c => (assemble c).map encode))

end Sys2Proof.Machine
end

