-- ==== Sys2Proof/Safety.lean ====
section
/-! DEFINITION. The terms the claims use: one whole command (00_scope.md R6), the invariants that hold between commands
(10_state.md R28 to R33), and the abstract tree (R31). -/

namespace Sys2Proof.Safety

open Sys2Proof.Machine

/-! ## One whole command: `step : State × CmdWord → State × RspWord × EOBits` (00_scope.md R6) -/

/-- The word is executed, then all its EO bits and its response are transferred: the state left, the response, the EO
bits in order. -/
def serve (w : CmdWord) (s : State) : Option (State × RspWord × List Bool) :=
  match acceptWord w s with
  | .next t => t.rspPort.map (fun r => ({ t with eoPort := [], rspPort := none }, r, t.eoPort))
  | .fault _ => none
  | .refused _ => none

/-- Commands served one after another: the state left, and each command's response and EO bits. -/
def serveAll : List Instr → State → Option (State × List (RspWord × List Bool))
  | [], s => some (s, [])
  | i :: rest, s =>
    (serve (encode i) s).bind (fun a => (serveAll rest a.1).map (fun b => (b.1, (a.2.1, a.2.2) :: b.2)))

/-- Field `STATUS` of a response (30_encoding.md R82). -/
def statusOf (r : RspWord) : BitVec 4 := r.extractLsb' 44 4

/-- Field `PAYLOAD` of a response (30_encoding.md R82). -/
def payloadOf (r : RspWord) : Payload := r.extractLsb' 0 40

/-- The byte a `DBIT` response emits, if `EMIT = 1` (30_encoding.md R83). -/
def emitted (r : RspWord) : List Sym := if r.getLsbD 8 then [r.extractLsb' 0 8] else []

/-- The EO bits of a run, in production order (30_encoding.md R90, 43_encoder.md R142). -/
def eoBits (replies : List (RspWord × List Bool)) : List Bool := replies.flatMap (fun a => a.2)

/-- The decoded bytes of a run, in order (30_encoding.md R90). -/
def decodedBytes (replies : List (RspWord × List Bool)) : List Sym := replies.flatMap (fun a => emitted a.1)

/-- Every response of the run is `OK`. -/
def AllOk (replies : List (RspWord × List Bool)) : Prop := ∀ a ∈ replies, statusOf a.1 = 0

/-- The command answers `st` and changes nothing but `LASTERR` (60_exceptions.md R174). -/
def FailsWith (st : BitVec 4) (answer : Host.Outcome State Fault Refusal) (s : State) : Prop :=
  answer = .next { s with lastErr := st, rspPort := some (st ++ (0 : BitVec 44)) }

/-! ## How a command is spelled (30_encoding.md R80, R81, R84, R85) -/

/-- `A` and `D` reserved: the one word is the opcode with zeros, any other with this opcode is illegal. -/
def NoOperands (op : BitVec 8) (i : Instr) : Prop :=
  decode (joinFields op 0 0) = .ok i ∧
  ∀ (a : BitVec 8) (d : BitVec 32) (s : State), a ≠ 0 ∨ d ≠ 0 → FailsWith 4 (acceptWord (joinFields op a d) s) s

/-- `sym = A`, `D` reserved. -/
def OnlySym (op : BitVec 8) (mk : Sym → Instr) : Prop :=
  ∀ sym : Sym, decode (joinFields op sym 0) = .ok (mk sym) ∧
  ∀ (d : BitVec 32) (s : State), d ≠ 0 → FailsWith 4 (acceptWord (joinFields op sym d) s) s

/-- `A` reserved, `idx = D[8:0]`, `D[31:9]` reserved. -/
def OnlyIndex (op : BitVec 8) (mk : NodeIx → Instr) : Prop :=
  (∀ idx : NodeIx, decode (joinFields op 0 (idx.setWidth 32)) = .ok (mk idx)) ∧
  ∀ (a : BitVec 8) (d : BitVec 32) (s : State), a ≠ 0 ∨ 512 ≤ d.toNat →
    FailsWith 4 (acceptWord (joinFields op a d) s) s

/-- The opcode of each mnemonic, column `OP` of the table of 30_encoding.md R84. -/
def mnemonicOpcode : Mnemonic → BitVec 8
  | .nop => 0x00
  | .clr => 0x01
  | .cnt => 0x02
  | .setf => 0x03
  | .build => 0x04
  | .derive => 0x05
  | .enc => 0x06
  | .dbit => 0x07
  | .dend => 0x08
  | .rdst => 0x10
  | .rdf => 0x11
  | .rdnl => 0x12
  | .rdnw => 0x13
  | .rdcl => 0x14
  | .rdcb => 0x15

/-- A `sym` operand spells the field value `v`: a number is its own value; a character is its ASCII code, PRESUMED
(notes/assumptions/9.md) (30_encoding.md R89). -/
def SpellsSym (o : SrcOperand) (v : Nat) : Prop := o = .num v ∨ ∃ c : Char, c.toNat < 128 ∧ o = .chr c ∧ c.toNat = v

/-- The commands that need a tree (60_exceptions.md R170, R173). -/
def needsTree : Instr → Bool
  | .derive => true
  | .dbit _ => true
  | .dend => true
  | .rdnl _ => true
  | .rdnw _ => true
  | .nop => false
  | .clr => false
  | .cnt _ => false
  | .setf _ _ => false
  | .build => false
  | .enc _ => false
  | .rdst => false
  | .rdf _ => false
  | .rdcl _ => false
  | .rdcb _ _ => false

/-- The node index a command names, if it names one (60_exceptions.md R173, level 3). -/
def nodeOperand : Instr → Option NodeIx
  | .rdnl idx => some idx
  | .rdnw idx => some idx
  | .nop => none
  | .clr => none
  | .cnt _ => none
  | .setf _ _ => none
  | .build => none
  | .derive => none
  | .enc _ => none
  | .dbit _ => none
  | .dend => none
  | .rdst => none
  | .rdf _ => none
  | .rdcl _ => none
  | .rdcb _ _ => none

/-- A command's own condition: the failure it reports at level 4 of 60_exceptions.md R173, or 0. -/
def ownFailure (s : State) : Instr → BitVec 4
  | .build => if (List.range 256).all (fun b => s.freqAt b == 0) then 1 else 0
  | .enc sym => if (s.entry sym).valid then 0 else 2
  | .dend => if s.mid then 3 else 0
  | .cnt sym => if s.count sym = 0xFFFFFFFF then 7 else 0
  | .nop => 0
  | .clr => 0
  | .setf _ _ => 0
  | .derive => 0
  | .dbit _ => 0
  | .rdst => 0
  | .rdf _ => 0
  | .rdnl _ => 0
  | .rdnw _ => 0
  | .rdcl _ => 0
  | .rdcb _ _ => 0

/-- The status a command word is answered with: the first failing check of 60_exceptions.md R173, or 0. -/
def firstFailure (w : CmdWord) (s : State) : BitVec 4 :=
  match decode w with
  | .error _ => 4
  | .ok i =>
    if needsTree i ∧ s.tv = false then 5
    else if ∃ idx ∈ nodeOperand i, 2 * s.nleaf.toNat - 1 ≤ idx.toNat then 6
    else ownFailure s i

/-- The six read-back commands (20_memory.md R66). -/
def isRead : Instr → Bool
  | .rdst => true
  | .rdf _ => true
  | .rdnl _ => true
  | .rdnw _ => true
  | .rdcl _ => true
  | .rdcb _ _ => true
  | .nop => false
  | .clr => false
  | .cnt _ => false
  | .setf _ _ => false
  | .build => false
  | .derive => false
  | .enc _ => false
  | .dbit _ => false
  | .dend => false

/-! ## The host's side -/

/-- The host's actions that deliver a word and accept all it brings: `bits` EO bits, then the response. -/
def hostServes (w : CmdWord) (bits : Nat) : List HostAction :=
  .offerCmd w :: (List.replicate bits .takeEo ++ [.takeRsp])

/-- What is offered and not yet transferred, in the order it leaves (00_scope.md R8). -/
def waiting (s : State) : List PortOut := s.eoPort.map PortOut.eo ++ s.rspPort.toList.map PortOut.rsp

/-! ## Invariants between commands -/

/-- Registers and flags (10_state.md R28, R29, R33; 60_exceptions.md R170: no status above 7). -/
abbrev FlagInv (s : State) : Prop :=
  (s.tv = false → s.nleaf = 0 ∧ s.root = 0 ∧ s.mid = false ∧ s.cur = 0 ∧ s.cv = false) ∧
  (s.tv = true → 1 ≤ s.nleaf.toNat ∧ s.nleaf.toNat ≤ 256 ∧ s.root.toNat = 2 * s.nleaf.toNat - 2) ∧
  (s.mid = false → s.cur = 0) ∧
  (s.mid = true → s.tv = true ∧ 2 ≤ s.nleaf.toNat) ∧
  s.lastErr.toNat ≤ 7

/-- The child links of the internal entries, in index order (10_state.md R30 (d)). -/
def childLinks (s : State) : List Nat :=
  ((List.range s.nnodes).drop s.nleaf.toNat).flatMap
    (fun i => [(s.nodeAt i).l.toNat, (s.nodeAt i).r.toNat])

/-- The sum of the leaf weights (10_state.md R30 (e)). -/
def leafWeightSum (s : State) : Nat := ((List.range s.nleaf.toNat).map (fun i => (s.nodeAt i).w.toNat)).sum

/-- A leaf entry as 10_state.md R24 and R30 (a), (e) give it. -/
abbrev LeafEntry (n : Node) : Prop :=
  n.tag = .leaf ∧ n.l = 0 ∧ n.r = 0 ∧ 1 ≤ n.w.toNat ∧ n.w.toNat ≤ 2 ^ 32 - 1

/-- An internal entry `i` as 10_state.md R24 and R30 (b), (c), (e) give it. -/
abbrev InternalEntry (s : State) (i : Nat) : Prop :=
  (s.nodeAt i).tag = .internal ∧ (s.nodeAt i).sym = 0 ∧
  (s.nodeAt i).l.toNat < i ∧ (s.nodeAt i).r.toNat < i ∧ (s.nodeAt i).l ≠ (s.nodeAt i).r ∧
  (s.nodeAt i).w.toNat =
    (s.nodeAt (s.nodeAt i).l.toNat).w.toNat + (s.nodeAt (s.nodeAt i).r.toNat).w.toNat

/-- While `TV = 1` the arena holds a strict binary tree (10_state.md R30 (a) to (e)), all of it written. -/
abbrev TreeInv (s : State) : Prop :=
  s.tv = true →
    s.nnodes ≤ s.node.length ∧
    (∀ i < s.nleaf.toNat, LeafEntry (s.nodeAt i)) ∧
    (∀ i < s.nleaf.toNat, ∀ j < i, (s.nodeAt j).sym.toNat < (s.nodeAt i).sym.toNat) ∧
    (∀ i < s.nnodes, s.nleaf.toNat ≤ i → InternalEntry s i) ∧
    (∀ j < s.nnodes, (childLinks s).count j = if j = s.root.toNat then 0 else 1) ∧
    (s.nodeAt s.root.toNat).w.toNat = leafWeightSum s ∧ (s.nodeAt s.root.toNat).w.toNat < 2 ^ 40

/-- In mid-walk `CUR` is an internal node other than the root (10_state.md R29). -/
abbrev WalkInv (s : State) : Prop :=
  s.mid = true → s.nleaf.toNat ≤ s.cur.toNat ∧ s.cur.toNat < s.root.toNat

/-- The decoder's whole invariant: flags, tree, walk (10_state.md R28, R29, R30, R33). -/
abbrev TreeWalkInv (s : State) : Prop := FlagInv s ∧ TreeInv s ∧ WalkInv s

/-- Following digits from node `i`: the node reached, if no leaf is met before the last digit (42_code_table.md R131). -/
def follow (s : State) : Nat → List Bool → Option Nat
  | i, [] => some i
  | i, d :: rest =>
    if (s.nodeAt i).tag = .internal then follow s (childOf (s.nodeAt i) d).toNat rest else none

/-- `digits` is the path from the root to the leaf of `sym`, or "0" in the degenerate tree (10_state.md R32). -/
abbrev IsCodeOf (s : State) (sym : Sym) (digits : List Bool) : Prop :=
  ∃ i < s.nleaf.toNat, (s.nodeAt i).sym = sym ∧
    (if s.nleaf.toNat = 1 then digits = [false] else follow s s.root.toNat digits = some i)

/-- A table entry as 10_state.md R25 gives it: an invalid one is all 0, a valid one has 1 to 255 digits and no bit set
beyond them. -/
abbrev EntryForm (e : CodeEntry) : Prop :=
  (e.valid = false → e = codeUnlisted) ∧
  (e.valid = true → 1 ≤ e.len.toNat ∧ ∀ k < 256, e.len.toNat ≤ k → e.bits.getLsbD k = false)

/-- The code table (10_state.md R25, R32): empty while `CV = 0`; while `CV = 1` the valid entries are the symbols of the
leaves, each the path of its leaf. -/
def CodeInv (s : State) : Prop :=
  (∀ b : Sym, EntryForm (s.entry b)) ∧
  (s.cv = false → ∀ b : Sym, s.entry b = codeUnlisted) ∧
  (s.cv = true → ∀ b : Sym,
    ((s.entry b).valid = true ↔ ∃ i < s.nleaf.toNat, (s.nodeAt i).sym = b) ∧
    ((s.entry b).valid = true → IsCodeOf s b (codeDigits (s.entry b))))

/-- EO bits wait only before their command's response, and that response is `OK` (00_scope.md R8, 43_encoder.md R141). -/
abbrev PortInv (s : State) : Prop :=
  s.eoPort ≠ [] → ∃ r, s.rspPort = some r ∧ statusOf r = 0

/-! ## The abstract tree (10_state.md R31) -/

/-- HUFSPEC's tree, a tagged union of Leaf and Internal. -/
inductive Tree where
  | leaf (sym : Sym) (w : Weight)
  | internal (w : Weight) (l r : Tree)
  deriving DecidableEq, Repr

/-- `T(i)` of R31: the tree whose root is entry `i` of the arena. -/
inductive TreeAt (s : State) : Nat → Tree → Prop where
  | leaf (i : Nat) (h : (s.nodeAt i).tag = .leaf) : TreeAt s i (.leaf (s.nodeAt i).sym (s.nodeAt i).w)
  | internal (i : Nat) (l r : Tree) (h : (s.nodeAt i).tag = .internal)
      (hl : TreeAt s (s.nodeAt i).l.toNat l) (hr : TreeAt s (s.nodeAt i).r.toNat r) :
      TreeAt s i (.internal (s.nodeAt i).w l r)

/-- `codes(T, p)` of 42_code_table.md R131: each leaf's symbol with its path. -/
def Tree.codes : Tree → List Bool → List (Sym × List Bool)
  | .leaf sym _, p => [(sym, p)]
  | .internal _ l r, p => l.codes (p ++ [false]) ++ r.codes (p ++ [true])

/-- The sum of the leaf weights of a tree. -/
def Tree.leafSum : Tree → Nat
  | .leaf _ w => w.toNat
  | .internal _ l r => l.leafSum + r.leafSum

/-! ## The greedy merge, declaratively (41_tree_builder.md R110 to R114) -/

/-- `i` comes before `j` in the order of R113. -/
def Precedes (s : State) (i j : Nat) : Prop :=
  (s.nodeAt i).w.toNat < (s.nodeAt j).w.toNat ∨ ((s.nodeAt i).w.toNat = (s.nodeAt j).w.toNat ∧ i < j)

/-- `j` is in the collection when internal node `k` is made: it exists, and no earlier internal node owns it. -/
def InCollection (s : State) (k j : Nat) : Prop :=
  j < k ∧ ∀ i, s.nleaf.toNat ≤ i → i < k → (s.nodeAt i).l.toNat ≠ j ∧ (s.nodeAt i).r.toNat ≠ j

/-- Internal node `k` is the merge of the two smallest of the collection, the smallest on the left (R113, R114). -/
def MergesTwoSmallest (s : State) (k : Nat) : Prop :=
  InCollection s k (s.nodeAt k).l.toNat ∧ InCollection s k (s.nodeAt k).r.toNat ∧
  Precedes s (s.nodeAt k).l.toNat (s.nodeAt k).r.toNat ∧
  ∀ j, InCollection s k j → j ≠ (s.nodeAt k).l.toNat → j ≠ (s.nodeAt k).r.toNat →
    Precedes s (s.nodeAt k).r.toNat j

/-! ## What a command can observe -/

/-- The two states differ at most in entries of `NODE` that no command can read (10_state.md R24, R37;
93_implementation_defined.md V1). -/
def SameObservable (s t : State) : Prop :=
  t = { s with node := t.node } ∧ ∀ i < s.nnodes, t.nodeAt i = s.nodeAt i

end Sys2Proof.Safety
end

