-- ==== Sys2Proof/Certificates/Slice0/Obligations.lean ====
section
/-! DEFINITION. The statements about HUFFCORE, from the numbered rules of spec/. Each is one `def Obligations.<Name>`. -/

open Sys2Proof Sys2Proof.Machine Sys2Proof.Safety

/-! ## Encoding -/

/-- Every command decodes from its own word with all its operands (30_encoding.md R80, R81, R84). -/
def Obligations.DecodeInvertsEncode : Prop := ∀ i : Instr, decode (encode i) = .ok i

/-- A legal word is the encoding of what it decodes to: no bit of it is ignored (30_encoding.md R85, R88). -/
def Obligations.EncodeInvertsDecode : Prop := ∀ (w : CmdWord) (i : Instr), decode w = .ok i → encode i = w

/-- R84: a word spells a command exactly when it matches the command's row, and the rows are disjoint. -/
def Obligations.DecodeAgreesWithOpcodeTable : Prop :=
  ∀ w : CmdWord,
    (∀ row ∈ opcodeRows, w &&& row.mask = row.pattern ↔ ∃ i, decode w = .ok i ∧ i.mnemonic = row.mnemonic) ∧
    ((∀ row ∈ opcodeRows, w &&& row.mask ≠ row.pattern) ↔ ∃ e, decode w = .error e) ∧
    ∀ row ∈ opcodeRows, ∀ row' ∈ opcodeRows, w &&& row.mask = row.pattern → w &&& row'.mask = row'.pattern →
      row = row'

/-- R86: a word that matches no pattern is answered `ILLEGAL` in every state and changes nothing but `LASTERR`;
undefined opcodes are such words with any operands. -/
def Obligations.UnmatchedWordIsIllegal : Prop :=
  (∀ (w : CmdWord) (s : State), (∀ row ∈ opcodeRows, w &&& row.mask ≠ row.pattern) →
    FailsWith 4 (acceptWord w s) s) ∧
  ∀ (op a : BitVec 8) (d : BitVec 32), (0x09 ≤ op.toNat ∧ op.toNat ≤ 0x0F) ∨ 0x16 ≤ op.toNat →
    ∀ row ∈ opcodeRows, joinFields op a d &&& row.mask ≠ row.pattern

/-- R80: `cmd = OP * 2^40 + A * 2^32 + D`. -/
def Obligations.CommandWordIsItsFields : Prop :=
  (∀ w : CmdWord, w.toNat = (opField w).toNat * 2 ^ 40 + (aField w).toNat * 2 ^ 32 + (dField w).toNat) ∧
  ∀ (op a : BitVec 8) (d : BitVec 32), opField (joinFields op a d) = op ∧ aField (joinFields op a d) = a ∧
    dField (joinFields op a d) = d

/-- Words written out from the patterns of R84 decode to the commands of the vectors VX1, VX5, VX7, VX12, VX18, VX20 of
95_test_vectors.md. -/
def Obligations.SampleWordsDecode : Prop :=
  decode 0x000000000000 = .ok .nop ∧ decode 0x026100000000 = .ok (.cnt 0x61) ∧
  decode 0x03FFFFFFFFFF = .ok (.setf 0xFF 0xFFFFFFFF) ∧ decode 0x070000000001 = .ok (.dbit true) ∧
  decode 0x1200000001FF = .ok (.rdnl 511) ∧ decode 0x156100000007 = .ok (.rdcb 0x61 7)

/-- Well-formed source commands, and only those, are assembled: the opcode is the mnemonic's (30_encoding.md R84), each
operand the unsigned value of its field, in the source order of R89, and a field with no operand is 0 (R81, R85). That a
quoted character is its ASCII code is the model's choice, PRESUMED (notes/assumptions/9.md). -/
def Obligations.SourceCommandsAssemble : Prop :=
  ∀ c : SrcCmd,
    (c.wf = false → assemble c = none) ∧
    (c.wf = true → ∃ i, assemble c = some i ∧ decode (encode i) = .ok i ∧
      opField (encode i) = mnemonicOpcode c.mnemonic ∧
      (c.mnemonic.shape = .nothing → c.operands = [] ∧ aField (encode i) = 0 ∧ dField (encode i) = 0) ∧
      (c.mnemonic.shape = .sym →
        ∃ o, c.operands = [o] ∧ SpellsSym o (aField (encode i)).toNat ∧ dField (encode i) = 0) ∧
      (c.mnemonic.shape = .symCount ∨ c.mnemonic.shape = .symChunk →
        ∃ o, c.operands = [o, .num (dField (encode i)).toNat] ∧ SpellsSym o (aField (encode i)).toNat) ∧
      (c.mnemonic.shape = .bit ∨ c.mnemonic.shape = .idx →
        c.operands = [.num (dField (encode i)).toNat] ∧ aField (encode i) = 0))

/-! ## Control -/

/-- NOP (45_control.md R160). -/
def Obligations.NopChangesNothing : Prop :=
  NoOperands 0x00 .nop ∧ ∀ s : State, exec .nop s = .next { s with rspPort := some 0 }

/-- CLR (45_control.md R161): the reset state in every respect a command can observe; the ports are not touched. -/
def Obligations.ClrReleasesEverything : Prop :=
  NoOperands 0x01 .clr ∧
  ∀ s : State, ∃ t, exec .clr s = .next t ∧
    t = { State.reset with node := s.node, eoPort := s.eoPort, rspPort := some 0, hostIn := s.hostIn, outLog := s.outLog } ∧
    SameObservable { State.reset with eoPort := s.eoPort, rspPort := some 0, hostIn := s.hostIn, outLog := s.outLog } t

/-- RDST (45_control.md R162) and the layout of the view (10_state.md R35). -/
def Obligations.RdstReadsStatusView : Prop :=
  NoOperands 0x10 .rdst ∧
  (∀ s : State, ∃ w : RspWord, exec .rdst s = .next { s with rspPort := some w } ∧
    w.getLsbD 0 = s.tv ∧ w.getLsbD 1 = s.cv ∧ w.getLsbD 2 = s.mid ∧
    (w.getLsbD 3 = true ↔ s.tv = true ∧ s.nleaf = 1) ∧
    w.extractLsb' 4 4 = s.lastErr ∧ w.extractLsb' 8 9 = s.nleaf ∧ w.extractLsb' 17 9 = s.root ∧
    w.extractLsb' 26 9 = s.cur ∧ w.extractLsb' 35 13 = 0) ∧
  exec .rdst State.reset = .next { State.reset with rspPort := some 0 } ∧
  ∀ s t : State, exec .clr s = .next t → exec .rdst t = .next { t with rspPort := some 0 }

/-! ## Frequency counter -/

/-- CNT (40_frequency_counter.md R100): one more, exactly, or `OVERFLOW` with the count kept; no other byte's count and
nothing else changes. -/
def Obligations.CntCountsOneOccurrence : Prop :=
  OnlySym 0x02 .cnt ∧
  ∀ (sym : Sym) (s : State),
    (s.count sym ≠ 0xFFFFFFFF → ∃ t, exec (.cnt sym) s = .next t ∧
      (t.count sym).toNat = (s.count sym).toNat + 1 ∧ (∀ b : Sym, b ≠ sym → t.count b = s.count b) ∧
      t = { s with freq := t.freq, rspPort := some 0 }) ∧
    (s.count sym = 0xFFFFFFFF → FailsWith 7 (exec (.cnt sym) s) s)

/-- SETF (40_frequency_counter.md R101): every word with this opcode is legal; the count is overwritten, nothing else
changes; 0 takes the byte out of the map, and after the largest count a CNT of the byte overflows. -/
def Obligations.SetfSetsCount : Prop :=
  ∀ (sym : Sym) (count : Count) (s : State),
    decode (joinFields 0x03 sym count) = .ok (.setf sym count) ∧
    ∃ t, exec (.setf sym count) s = .next t ∧
      t.count sym = count ∧ (∀ b : Sym, b ≠ sym → t.count b = s.count b) ∧
      t = { s with freq := t.freq, rspPort := some 0 } ∧
      (count = 0 → sym.toNat ∉ t.present) ∧ (count = 0xFFFFFFFF → FailsWith 7 (exec (.cnt sym) t) t)

/-- RDF (40_frequency_counter.md R102): the count, zero-extended; 0 for every byte after a successful `BUILD`. -/
def Obligations.RdfReadsCount : Prop :=
  OnlySym 0x11 .rdf ∧
  ∀ (sym : Sym) (s : State),
    exec (.rdf sym) s = .next { s with rspPort := some ((s.count sym).setWidth 48) } ∧
    ∀ t, (∃ b : Sym, s.count b ≠ 0) → exec .build s = .next t → t.count sym = 0

/-- R103: counting a text into an empty map gives each byte's number of occurrences, whatever the order, and touches
nothing else. -/
def Obligations.CountsAreOccurrences : Prop :=
  ∀ (text : List Sym) (s : State), s.cmdReady = true → (∀ b : Sym, s.count b = 0) →
    (∀ b : Sym, text.count b < 2 ^ 32) →
    ∃ t replies, serveAll (countsCmds text) s = some (t, replies) ∧ AllOk replies ∧
      (∀ b : Sym, (t.count b).toNat = text.count b) ∧ t = { s with freq := t.freq }

/-! ## Tree builder -/

/-- BUILD on the empty map answers `EMPTY_INPUT` and changes nothing but `LASTERR` (41_tree_builder.md R112,
60_exceptions.md R171, 90_conflicts.md C3). -/
def Obligations.BuildOnEmptyMapFails : Prop :=
  NoOperands 0x04 .build ∧ ∀ s : State, (∀ b : Sym, s.count b = 0) → FailsWith 1 (exec .build s) s

/-- BUILD on a non-empty map completes: the tree is valid with as many leaves as the map has entries, counts, table and
walk are cleared, and only what R112 names is written (41_tree_builder.md R112, R115; 30_encoding.md R83). -/
def Obligations.BuildCompletes : Prop :=
  ∀ s : State, (∃ b : Sym, s.count b ≠ 0) →
    ∃ t w, exec .build s = .next t ∧
      t.tv = true ∧ t.nleaf.toNat = s.present.length ∧ t.root.toNat = 2 * s.present.length - 2 ∧
      (∀ b : Sym, t.count b = 0) ∧ t.cv = false ∧ (∀ b : Sym, t.entry b = codeUnlisted) ∧
      t.mid = false ∧ t.cur = 0 ∧
      t.rspPort = some w ∧ w.extractLsb' 0 9 = t.nleaf ∧ w.extractLsb' 9 9 = t.root ∧ w.extractLsb' 18 30 = 0 ∧
      t = { s with freq := [], node := t.node, code := [], tv := true, cv := false, nleaf := t.nleaf, root := t.root,
                   mid := false, cur := 0, rspPort := some w }

/-- R111: the leaves are the bytes with a non-zero count, ascending, each with its count as weight. -/
def Obligations.BuildMakesLeavesAscending : Prop :=
  ∀ s : State, (∃ b : Sym, s.count b ≠ 0) →
    ∃ t, exec .build s = .next t ∧ ∃ symbols : List Sym,
      symbols.Pairwise (fun a b => a.toNat < b.toNat) ∧ (∀ b : Sym, b ∈ symbols ↔ s.count b ≠ 0) ∧
      t.nleaf.toNat = symbols.length ∧
      ∀ (j : Nat) (b : Sym), symbols[j]? = some b →
        t.nodeAt j = { tag := .leaf, sym := b, w := (s.count b).setWidth 40, l := 0, r := 0 }

/-- R113, R114: internal node `k` is the merge of the two smallest nodes of the collection in the order of
`(W, index)`, the smallest on the left; its weight is the exact sum of theirs and its `SYM` is 0 (R112). -/
def Obligations.BuildMergesTwoSmallest : Prop :=
  ∀ s : State, (∃ b : Sym, s.count b ≠ 0) →
    ∃ t, exec .build s = .next t ∧
      ∀ k, t.nleaf.toNat ≤ k → k < t.nnodes → InternalEntry t k ∧ MergesTwoSmallest t k

/-- The root's weight is the sum of all counts, and RDNW of the root reads it (41_tree_builder.md R116 (a), R118). -/
def Obligations.BuildConservesWeight : Prop :=
  ∀ s : State, (∃ b : Sym, s.count b ≠ 0) →
    ∃ t, exec .build s = .next t ∧
      (t.nodeAt t.root.toNat).w.toNat = ((List.range 256).map (fun b => (s.freqAt b).toNat)).sum ∧
      exec (.rdnw t.root) t = .next { t with rspPort := some ((t.nodeAt t.root.toNat).w.setWidth 48) }

/-- The tree is a function of the 256 counts alone, whatever tree, table, walk or representation there was before
(41_tree_builder.md R116 (c)). -/
def Obligations.BuildIsFunctionOfCounts : Prop :=
  ∀ s s' : State, (∃ b : Sym, s.count b ≠ 0) → (∀ b : Sym, s'.count b = s.count b) →
    ∃ t t', exec .build s = .next t ∧ exec .build s' = .next t' ∧
      t'.nleaf = t.nleaf ∧ t'.root = t.root ∧ t'.rspPort = t.rspPort ∧ ∀ i < t.nnodes, t'.nodeAt i = t.nodeAt i

/-- The weights of the internal nodes never decrease in order of creation (41_tree_builder.md R116 (d)). -/
def Obligations.BuildWeightsNeverDecrease : Prop :=
  ∀ s : State, (∃ b : Sym, s.count b ≠ 0) →
    ∃ t, exec .build s = .next t ∧
      ∀ i, t.nleaf.toNat ≤ i → i + 1 < t.nnodes → (t.nodeAt i).w.toNat ≤ (t.nodeAt (i + 1)).w.toNat

/-- RDNL (41_tree_builder.md R117). -/
def Obligations.RdnlReadsLinks : Prop :=
  OnlyIndex 0x12 .rdnl ∧
  ∀ (idx : NodeIx) (s : State),
    (s.tv = false → FailsWith 5 (exec (.rdnl idx) s) s) ∧
    (s.tv = true → 2 * s.nleaf.toNat - 1 ≤ idx.toNat → FailsWith 6 (exec (.rdnl idx) s) s) ∧
    (s.tv = true → idx.toNat < 2 * s.nleaf.toNat - 1 →
      ∃ w : RspWord, exec (.rdnl idx) s = .next { s with rspPort := some w } ∧
        (w.getLsbD 0 = true ↔ (s.nodeAt idx.toNat).tag = .internal) ∧
        w.extractLsb' 1 8 = (s.nodeAt idx.toNat).sym ∧ w.extractLsb' 9 9 = (s.nodeAt idx.toNat).l ∧
        w.extractLsb' 18 9 = (s.nodeAt idx.toNat).r ∧ w.extractLsb' 27 21 = 0 ∧
        (TreeInv s → w.getLsbD 0 = false → w.extractLsb' 9 9 = 0 ∧ w.extractLsb' 18 9 = 0) ∧
        (TreeInv s → w.getLsbD 0 = true → w.extractLsb' 1 8 = 0))

/-- RDNW (41_tree_builder.md R118). -/
def Obligations.RdnwReadsWeight : Prop :=
  OnlyIndex 0x13 .rdnw ∧
  ∀ (idx : NodeIx) (s : State),
    (s.tv = false → FailsWith 5 (exec (.rdnw idx) s) s) ∧
    (s.tv = true → 2 * s.nleaf.toNat - 1 ≤ idx.toNat → FailsWith 6 (exec (.rdnw idx) s) s) ∧
    (s.tv = true → idx.toNat < 2 * s.nleaf.toNat - 1 →
      exec (.rdnw idx) s = .next { s with rspPort := some ((s.nodeAt idx.toNat).w.setWidth 48) })

/-! ## Code table generator -/

/-- DERIVE (42_code_table.md R130): `NOTREE` without a tree; with one it completes and writes `CODE` and `CV` only. -/
def Obligations.DeriveWritesOnlyTable : Prop :=
  NoOperands 0x05 .derive ∧
  ∀ s : State,
    (s.tv = false → FailsWith 5 (exec .derive s) s) ∧
    (s.tv = true → ∃ t, exec .derive s = .next t ∧ t = { s with code := t.code, cv := true, rspPort := some 0 })

/-- R131: the table is `codes(T(ROOT), "")`, each code as long as its leaf is deep. -/
def Obligations.DeriveRecordsRootPaths : Prop :=
  ∀ s : State, TreeWalkInv s → s.tv = true → s.nleaf ≠ 1 →
    ∃ t tree, exec .derive s = .next t ∧ TreeAt s s.root.toNat tree ∧
      (∀ (b : Sym) (path : List Bool),
        ((t.entry b).valid = true ∧ codeDigits (t.entry b) = path) ↔ (b, path) ∈ tree.codes []) ∧
      ∀ b : Sym, (t.entry b).valid = true → 1 ≤ (t.entry b).len.toNat ∧ (t.entry b).len.toNat ≤ s.nleaf.toNat - 1

/-- R132: the degenerate table holds exactly the code "0" of the one symbol. -/
def Obligations.DeriveDegenerateTable : Prop :=
  ∀ s : State, s.tv = true → s.nleaf = 1 →
    ∃ t, exec .derive s = .next t ∧
      ∀ b : Sym, t.entry b =
        if b = (s.nodeAt 0).sym then { valid := true, len := 1, bits := 0 } else { valid := false, len := 0, bits := 0 }

/-- R135: prefix-free, one valid entry per leaf, a function of the tree alone, 1 to 255 digits and no bit beyond. -/
def Obligations.DerivedTableIsPrefixCode : Prop :=
  ∀ s : State, TreeWalkInv s → s.tv = true →
    ∃ t, exec .derive s = .next t ∧
      (∀ a b : Sym, (t.entry a).valid = true → (t.entry b).valid = true → a ≠ b →
        ¬ codeDigits (t.entry a) <+: codeDigits (t.entry b)) ∧
      ((List.range 256).filter (fun b => (t.codeAt b).valid)).length = s.nleaf.toNat ∧
      (∀ b : Sym, (t.entry b).valid = true ↔ ∃ i < s.nleaf.toNat, (s.nodeAt i).sym = b) ∧
      (∀ s' : State, s'.tv = true → s'.nleaf = s.nleaf → s'.root = s.root →
        (∀ i < s.nnodes, s'.nodeAt i = s.nodeAt i) →
        ∃ t', exec .derive s' = .next t' ∧ ∀ b : Sym, t'.entry b = t.entry b) ∧
      ∀ b : Sym, (t.entry b).valid = true → 1 ≤ (t.entry b).len.toNat ∧ (t.entry b).len.toNat ≤ 255 ∧
        ∀ k < 256, (t.entry b).len.toNat ≤ k → (t.entry b).bits.getLsbD k = false

/-- RDCL (42_code_table.md R133): never a failure of its own; payload 0 for an empty table and for a byte with no code. -/
def Obligations.RdclReadsLength : Prop :=
  OnlySym 0x14 .rdcl ∧
  ∀ (sym : Sym) (s : State), ∃ w : RspWord, exec (.rdcl sym) s = .next { s with rspPort := some w } ∧
    w.getLsbD 0 = (s.entry sym).valid ∧ w.extractLsb' 1 8 = (s.entry sym).len ∧ w.extractLsb' 9 39 = 0 ∧
    (CodeInv s → s.cv = false ∨ (s.entry sym).valid = false → w = 0)

/-- RDCB (42_code_table.md R134, 20_memory.md R62): bit `j` of chunk `k` is digit `32*k + j`; digits from `LEN` up and every
digit of an invalid entry read 0. -/
def Obligations.RdcbReadsChunk : Prop :=
  (∀ (sym : Sym) (k : Chunk), decode (joinFields 0x15 sym (k.setWidth 32)) = .ok (.rdcb sym k)) ∧
  (∀ (sym : Sym) (d : BitVec 32) (s : State), 8 ≤ d.toNat → FailsWith 4 (acceptWord (joinFields 0x15 sym d) s) s) ∧
  ∀ (sym : Sym) (k : Chunk) (s : State),
    ∃ w : RspWord, exec (.rdcb sym k) s = .next { s with rspPort := some w } ∧
      w.extractLsb' 32 16 = 0 ∧
      (∀ j < 32, w.getLsbD j = (s.entry sym).bits.getLsbD (32 * k.toNat + j)) ∧
      (CodeInv s → (s.entry sym).valid = false → w = 0) ∧
      (CodeInv s → ∀ j < 32, (s.entry sym).len.toNat ≤ 32 * k.toNat + j → w.getLsbD j = false) ∧
      (CodeInv s → k = 7 → w.getLsbD 31 = false)

/-! ## Encoder -/

/-- ENC (43_encoder.md R140): the digits `BITS[0]` to `BITS[LEN-1]`, in order, and the length; or `UNKNOWN_SYMBOL` with no
bit. Nothing else is written. -/
def Obligations.EncEmitsCode : Prop :=
  OnlySym 0x06 .enc ∧
  ∀ (sym : Sym) (s : State),
    ((s.entry sym).valid = true → ∃ bits : List Bool,
      exec (.enc sym) s =
        .next { s with eoPort := s.eoPort ++ bits, rspPort := some ((s.entry sym).len.setWidth 48) } ∧
      bits.length = (s.entry sym).len.toNat ∧
      ∀ k < (s.entry sym).len.toNat, bits[k]? = some ((s.entry sym).bits.getLsbD k)) ∧
    ((s.entry sym).valid = false → FailsWith 2 (exec (.enc sym) s) s) ∧
    (CodeInv s → s.cv = false → FailsWith 2 (exec (.enc sym) s) s)

/-- R142: the EO bits of a text are its codes one after another, as many as the `LEN` payloads add up to. -/
def Obligations.EncsConcatenatesCodes : Prop :=
  ∀ (text : List Sym) (s : State), s.cmdReady = true → (∀ c ∈ text, (s.entry c).valid = true) →
    ∃ replies, serveAll (encsCmds text) s = some (s, replies) ∧ AllOk replies ∧
      eoBits replies = text.flatMap (fun c => codeDigits (s.entry c)) ∧
      (eoBits replies).length = (replies.map (fun a => (payloadOf a.1).toNat)).sum

/-- After a successful `BUILD`, and after `CLR`, every `ENC` finds the table empty: a table never outlives its tree
(70_reset_and_hazards.md R200, 20_memory.md R70). -/
def Obligations.TableNeverOutlivesTree : Prop :=
  ∀ (s : State) (sym : Sym),
    (∀ t, (∃ b : Sym, s.count b ≠ 0) → exec .build s = .next t → FailsWith 2 (exec (.enc sym) t) t) ∧
    ∀ t, exec .clr s = .next t → FailsWith 2 (exec (.enc sym) t) t

/-! ## Decoder -/

/-- DBIT (44_decoder.md R151): from `ROOT` or `CUR` to the child of the bit; a leaf emits its symbol and ends the walk at the
root, an internal node is the new `CUR`. -/
def Obligations.DbitWalksOneEdge : Prop :=
  ((∀ bit : Bool, decode (joinFields 0x07 0 ((BitVec.ofBool bit).setWidth 32)) = .ok (.dbit bit)) ∧
    ∀ (a : BitVec 8) (d : BitVec 32) (s : State), a ≠ 0 ∨ 2 ≤ d.toNat →
      FailsWith 4 (acceptWord (joinFields 0x07 a d) s) s) ∧
  ∀ (bit : Bool) (s : State),
    (s.tv = false → FailsWith 5 (exec (.dbit bit) s) s) ∧
    ∀ here child : NodeIx, s.tv = true → s.nleaf ≠ 1 → here = (if s.mid = true then s.cur else s.root) →
      child = (if bit = false then (s.nodeAt here.toNat).l else (s.nodeAt here.toNat).r) →
      ((s.nodeAt child.toNat).tag = .leaf → exec (.dbit bit) s =
        .next { s with mid := false, cur := 0, rspPort := some ((1 : BitVec 40) ++ (s.nodeAt child.toNat).sym) }) ∧
      ((s.nodeAt child.toNat).tag = .internal → exec (.dbit bit) s =
        .next { s with mid := true, cur := child, rspPort := some 0 }) ∧
      (TreeWalkInv s → (s.nodeAt here.toNat).tag = .internal)

/-- R152: on the degenerate tree every bit, 0 or 1, emits the one symbol with the walk at the root, and DEND is `OK`. -/
def Obligations.DegenerateTreeEmitsOnEveryBit : Prop :=
  ∀ (s : State) (bit : Bool), s.tv = true → s.nleaf = 1 →
    exec (.dbit bit) s = .next { s with rspPort := some ((1 : BitVec 40) ++ (s.nodeAt 0).sym) } ∧
    (FlagInv s → s.mid = false ∧ exec .dend s = .next { s with rspPort := some 0 })

/-- DEND (44_decoder.md R153). -/
def Obligations.DendChecksWalkAtRoot : Prop :=
  NoOperands 0x08 .dend ∧
  ∀ s : State,
    (s.tv = false → FailsWith 5 (exec .dend s) s) ∧
    (s.tv = true → s.mid = true → FailsWith 3 (exec .dend s) { s with mid := false, cur := 0 }) ∧
    (s.tv = true → s.mid = false → exec .dend s = .next { s with rspPort := some 0 })

/-- On a tree with at least two leaves, `NLEAF - 1` consecutive `DBIT` commands emit at least one symbol
(44_decoder.md R151). -/
def Obligations.SymbolWithinNleafBits : Prop :=
  ∀ (s : State) (bits : List Bool), TreeWalkInv s → s.cmdReady = true → s.tv = true → 2 ≤ s.nleaf.toNat →
    s.nleaf.toNat - 1 ≤ bits.length →
    ∃ t replies, serveAll (bits.map Instr.dbit) s = some (t, replies) ∧ decodedBytes replies ≠ []

/-- The digits of a symbol's code, fed from the root, emit exactly that symbol and bring the walk back to the root
(42_code_table.md R131, R132; 44_decoder.md R150 to R152). -/
def Obligations.DecodingCodeEmitsItsSymbol : Prop :=
  ∀ (s : State) (sym : Sym), TreeWalkInv s → CodeInv s → s.cmdReady = true → s.cv = true → s.mid = false →
    (s.entry sym).valid = true →
    ∃ replies, serveAll ((codeDigits (s.entry sym)).map Instr.dbit) s = some (s, replies) ∧ AllOk replies ∧
      decodedBytes replies = [sym]

/-- R154: for every non-empty text, `CLR`, `COUNTS`, `BUILD`, `DERIVE`, `ENCS`, then the EO bits as `DBIT`s and `DEND`:
every response is `OK` and the decoded bytes are the text. From any state, whatever it holds. -/
def Obligations.RoundTripReproducesText : Prop :=
  ∀ (text : List Sym) (s : State), text ≠ [] → s.cmdReady = true → (∀ b : Sym, text.count b < 2 ^ 32) →
    ∃ t coded u decoded, serveAll (mktreeCmds text ++ encsCmds text) s = some (t, coded) ∧ AllOk coded ∧
      serveAll (decsCmds (eoBits coded)) t = some (u, decoded) ∧ AllOk decoded ∧ decodedBytes decoded = text

/-- Encoder and decoder interleave freely: ENC and DBIT commute when both succeed (70_reset_and_hazards.md R194,
43_encoder.md R140). -/
def Obligations.EncAndDbitCommute : Prop :=
  ∀ (s t : State) (sym : Sym) (bit : Bool) (replies : List (RspWord × List Bool)), s.cmdReady = true →
    serveAll [.enc sym, .dbit bit] s = some (t, replies) → AllOk replies →
    serveAll [.dbit bit, .enc sym] s = some (t, replies.reverse)

/-! ## Responses and failures, over all commands -/

/-- R82: every command word is answered by exactly one response word, bits 43:40 zero, payload 0 whenever the status is
not 0; no status is above 7 (60_exceptions.md R170). -/
def Obligations.EveryWordHasOneResponse : Prop :=
  ∀ (w : CmdWord) (s : State), ∃ t r, acceptWord w s = .next t ∧ t.rspPort = some r ∧
    r.toNat = (statusOf r).toNat * 2 ^ 44 + (payloadOf r).toNat ∧ (statusOf r ≠ 0 → payloadOf r = 0) ∧
    (statusOf r).toNat ≤ 7

/-- R173: the status is that of the first failing check, in the fixed order. -/
def Obligations.FirstFailingCheckIsReported : Prop :=
  ∀ (w : CmdWord) (s : State), ∃ t r, acceptWord w s = .next t ∧ t.rspPort = some r ∧ statusOf r = firstFailure w s

/-- R174: a failure writes `LASTERR` and nothing else, but `TRUNCATED_STREAM` also puts the walk back at the root; no EO
bit, payload 0. -/
def Obligations.FailureChangesOnlyLastErr : Prop :=
  ∀ (w : CmdWord) (s t : State) (r : RspWord), acceptWord w s = .next t → t.rspPort = some r → statusOf r ≠ 0 →
    r = statusOf r ++ (0 : BitVec 44) ∧
    (statusOf r ≠ 3 → t = { s with lastErr := statusOf r, rspPort := some r }) ∧
    (statusOf r = 3 → t = { s with lastErr := 3, mid := false, cur := 0, rspPort := some r })

/-- R178: a success leaves `LASTERR` as it was, but `CLR` leaves it 0. -/
def Obligations.SuccessKeepsLastErr : Prop :=
  ∀ (w : CmdWord) (s t : State) (r : RspWord), acceptWord w s = .next t → t.rspPort = some r → statusOf r = 0 →
    (decode w = .ok .clr → t.lastErr = 0) ∧ (decode w ≠ .ok .clr → t.lastErr = s.lastErr)

/-- Each piece of state is written by no other command than its table names (10_state.md R20, R23, R24, R25;
20_memory.md R60), `LASTERR` by `CLR` and by a failing command with its status (R20, R34). No command touches the model's
own fields, the host's actions and the record of transfers (DESIGN CHOICE, notes/assumptions/1.md and 2.md). -/
def Obligations.OnlyNamedCommandsWriteState : Prop :=
  ∀ (i : Instr) (s t : State), exec i s = .next t →
    (i ≠ .build → t.node = s.node) ∧
    (i ≠ .build → i ≠ .clr → t.tv = s.tv ∧ t.nleaf = s.nleaf ∧ t.root = s.root) ∧
    (i ≠ .build → i ≠ .clr → i ≠ .derive → t.code = s.code ∧ t.cv = s.cv) ∧
    (i ≠ .build → i ≠ .clr → i ≠ .dend → (∀ bit, i ≠ .dbit bit) → t.mid = s.mid ∧ t.cur = s.cur) ∧
    (i ≠ .build → i ≠ .clr → (∀ sym, i ≠ .cnt sym) → (∀ sym count, i ≠ .setf sym count) → t.freq = s.freq) ∧
    (i ≠ .clr → t.lastErr = s.lastErr ∨ ∃ r, t.rspPort = some r ∧ statusOf r ≠ 0 ∧ t.lastErr = statusOf r) ∧
    ((∀ sym, i ≠ .enc sym) → t.eoPort = s.eoPort) ∧
    t.hostIn = s.hostIn ∧ t.outLog = s.outLog

/-- The six reads have no side effect: but for a failure's `LASTERR` they change no state, and a repeated read answers the
same (20_memory.md R66). -/
def Obligations.ReadsHaveNoSideEffect : Prop :=
  ∀ (i : Instr) (s : State), isRead i = true → ∃ t r, exec i s = .next t ∧ t.rspPort = some r ∧
    exec i t = .next t ∧ (statusOf r = 0 → t = { s with rspPort := some r })

/-- No command and no host action stops the machine, in any state (00_scope.md R6, 70_reset_and_hazards.md R203). -/
def Obligations.StepNeverStops : Prop :=
  (∀ s : State, ∃ t, step s = .next t) ∧ ∀ (w : CmdWord) (s : State), ∃ t, acceptWord w s = .next t

/-! ## Invariants -/

/-- R37: what reset leaves. `NODE` is unspecified: any arena gives the same observable state. -/
def Obligations.ResetStateIsEmpty : Prop :=
  (∀ b : Sym, State.reset.count b = 0) ∧ (∀ b : Sym, State.reset.entry b = { valid := false, len := 0, bits := 0 }) ∧
  State.reset.tv = false ∧ State.reset.cv = false ∧ State.reset.nleaf = 0 ∧ State.reset.root = 0 ∧
  State.reset.mid = false ∧ State.reset.cur = 0 ∧ State.reset.lastErr = 0 ∧ State.reset.statusView = 0 ∧
  State.reset.eoPort = [] ∧ State.reset.rspPort = none ∧
  ∀ nodes : List Node, SameObservable State.reset { State.reset with node := nodes }

/-- The invariants hold at reset (the array form is the model's, notes/assumptions/5.md). -/
def Obligations.ResetMeetsInvariants : Prop :=
  Memory.wf State.reset ∧ TreeWalkInv State.reset ∧ CodeInv State.reset ∧ PortInv State.reset

/-- Every step keeps the arrays in canonical form, which is the model's choice (notes/assumptions/5.md), and within the
sizes of 20_memory.md R60. -/
def Obligations.StepKeepsMemoryCanonical : Prop :=
  ∀ s t : State, Memory.wf s → step s = .next t → Memory.wf t

/-- R33, with R28 and the walk's `CUR = 0` at the root: hold at reset and are kept by every step. -/
def Obligations.StepKeepsFlagInvariant : Prop :=
  FlagInv State.reset ∧ ∀ s t : State, FlagInv s → step s = .next t → FlagInv t

/-- R30 with R29: at reset, and after every step, the arena is a strict binary tree and the walk is on it. -/
def Obligations.StepKeepsTree : Prop :=
  TreeWalkInv State.reset ∧ ∀ s t : State, TreeWalkInv s → step s = .next t → TreeWalkInv t

/-- R32 with R25: every step keeps the table the table of the tree, or empty. -/
def Obligations.StepKeepsCodeTable : Prop :=
  ∀ s t : State, TreeWalkInv s → CodeInv s → step s = .next t → CodeInv t

/-- Every step keeps EO bits before the response of the successful command they belong to (00_scope.md R8,
43_encoder.md R141). -/
def Obligations.StepKeepsPortOrder : Prop :=
  ∀ s t : State, PortInv s → step s = .next t → PortInv t

/-- What no command can read it cannot learn: states that differ only in unreadable `NODE` entries answer alike and go on
differing only there (10_state.md R24, R37). -/
def Obligations.UnreadableNodesDoNotMatter : Prop :=
  ∀ (w : CmdWord) (s s' t : State), TreeWalkInv s → SameObservable s s' → acceptWord w s = .next t →
    ∃ t', acceptWord w s' = .next t' ∧ SameObservable t t'

/-! ## Ports and steps

The host as a list of actions, its waiting, and the log of what was transferred are the model's own (DESIGN CHOICE,
notes/assumptions/1.md and 2.md); the order they show is the spec's. -/

/-- When the host offers a word and the command port is ready, the step is the execution of the command the word decodes
to, with the host's action done. -/
def Obligations.StepRunsDecodedCommand : Prop :=
  ∀ (s : State) (w : CmdWord) (i : Instr) (rest : List HostAction), s.hostIn = .offerCmd w :: rest → s.eoPort = [] →
    s.rspPort = none → decode w = .ok i → step s = exec i { s with hostIn := rest }

/-- While an EO bit or the response waits, an offered word is not accepted, and the response is not transferred before
the EO bits: the host waits and nothing changes (30_encoding.md R91, 70_reset_and_hazards.md R199). -/
def Obligations.BusyBlockMakesHostWait : Prop :=
  ∀ (s : State) (w : CmdWord) (rest : List HostAction),
    (s.hostIn = .offerCmd w :: rest → s.eoPort ≠ [] ∨ s.rspPort ≠ none → step s = .next s) ∧
    (s.hostIn = .takeRsp :: rest → s.eoPort ≠ [] → step s = .next s)

/-- No output is dropped, repeated or reordered: a transfer moves the first waiting item to the end of what was transferred
(43_encoder.md R141, 00_scope.md R8). -/
def Obligations.TransfersKeepOutputOrder : Prop :=
  ∀ (s t : State) (rest : List HostAction), s.hostIn = .takeEo :: rest ∨ s.hostIn = .takeRsp :: rest →
    step s = .next t → t.outLog ++ waiting t = s.outLog ++ waiting s

/-- A host that delivers a word and accepts everything sees what `serve` says, EO bits first, then the response, and
leaves the state `serve` says (00_scope.md R6, R8). -/
def Obligations.HostRunIsServe : Prop :=
  ∀ (w : CmdWord) (s t : State) (r : RspWord) (bits : List Bool) (rest : List HostAction), s.cmdReady = true →
    s.hostIn = hostServes w bits.length ++ rest → serve w s = some (t, r, bits) →
    core.run (bits.length + 2) s =
      .next { t with hostIn := rest, outLog := s.outLog ++ bits.map PortOut.eo ++ [.rsp r] }

/-- Reset, at any moment: every piece of state and both ports to the reset state; what was transferred stays transferred
(70_reset_and_hazards.md R190, R191). -/
def Obligations.ResetAbandonsEverything : Prop :=
  ∀ (s : State) (rest : List HostAction), s.hostIn = .reset :: rest →
    step s = .next { State.reset with hostIn := rest, outLog := s.outLog }

/-- An ENC cut short by reset after `k` transfers has output the first `k` digits of the code and gets no response
(70_reset_and_hazards.md R191, 93_implementation_defined.md V5). -/
def Obligations.EncCutShortLeavesDigitsSent : Prop :=
  ∀ (s : State) (sym : Sym) (k : Nat) (rest : List HostAction), s.cmdReady = true → (s.entry sym).valid = true →
    k ≤ (s.entry sym).len.toNat →
    s.hostIn = .offerCmd (encode (.enc sym)) :: (List.replicate k .takeEo ++ .reset :: rest) →
    core.run (k + 2) s = .next
      { State.reset with hostIn := rest, outLog := s.outLog ++ ((codeDigits (s.entry sym)).take k).map PortOut.eo }
end

