-- ==== Sys2Proof/Laws/State.lean ====
section
/-! SUPPORT. One lemma for each field of State under each named update, so that no proof unfolds a record update. -/

namespace Sys2Proof.Laws

open Sys2Proof.Machine

/-! ### `State.setFreq` -/

@[simp] theorem setFreq_freq (s : State) (b : Nat) (c : Count) : (s.setFreq b c).freq = cellWrite freqUnlisted s.freq b c := rfl
@[simp] theorem setFreq_node (s : State) (b : Nat) (c : Count) : (s.setFreq b c).node = s.node := rfl
@[simp] theorem setFreq_code (s : State) (b : Nat) (c : Count) : (s.setFreq b c).code = s.code := rfl
@[simp] theorem setFreq_tv (s : State) (b : Nat) (c : Count) : (s.setFreq b c).tv = s.tv := rfl
@[simp] theorem setFreq_cv (s : State) (b : Nat) (c : Count) : (s.setFreq b c).cv = s.cv := rfl
@[simp] theorem setFreq_nleaf (s : State) (b : Nat) (c : Count) : (s.setFreq b c).nleaf = s.nleaf := rfl
@[simp] theorem setFreq_root (s : State) (b : Nat) (c : Count) : (s.setFreq b c).root = s.root := rfl
@[simp] theorem setFreq_mid (s : State) (b : Nat) (c : Count) : (s.setFreq b c).mid = s.mid := rfl
@[simp] theorem setFreq_cur (s : State) (b : Nat) (c : Count) : (s.setFreq b c).cur = s.cur := rfl
@[simp] theorem setFreq_lastErr (s : State) (b : Nat) (c : Count) : (s.setFreq b c).lastErr = s.lastErr := rfl
@[simp] theorem setFreq_eoPort (s : State) (b : Nat) (c : Count) : (s.setFreq b c).eoPort = s.eoPort := rfl
@[simp] theorem setFreq_rspPort (s : State) (b : Nat) (c : Count) : (s.setFreq b c).rspPort = s.rspPort := rfl
@[simp] theorem setFreq_hostIn (s : State) (b : Nat) (c : Count) : (s.setFreq b c).hostIn = s.hostIn := rfl
@[simp] theorem setFreq_outLog (s : State) (b : Nat) (c : Count) : (s.setFreq b c).outLog = s.outLog := rfl

/-! ### `State.clearFreq` -/

@[simp] theorem clearFreq_freq (s : State) : (s.clearFreq).freq = [] := rfl
@[simp] theorem clearFreq_node (s : State) : (s.clearFreq).node = s.node := rfl
@[simp] theorem clearFreq_code (s : State) : (s.clearFreq).code = s.code := rfl
@[simp] theorem clearFreq_tv (s : State) : (s.clearFreq).tv = s.tv := rfl
@[simp] theorem clearFreq_cv (s : State) : (s.clearFreq).cv = s.cv := rfl
@[simp] theorem clearFreq_nleaf (s : State) : (s.clearFreq).nleaf = s.nleaf := rfl
@[simp] theorem clearFreq_root (s : State) : (s.clearFreq).root = s.root := rfl
@[simp] theorem clearFreq_mid (s : State) : (s.clearFreq).mid = s.mid := rfl
@[simp] theorem clearFreq_cur (s : State) : (s.clearFreq).cur = s.cur := rfl
@[simp] theorem clearFreq_lastErr (s : State) : (s.clearFreq).lastErr = s.lastErr := rfl
@[simp] theorem clearFreq_eoPort (s : State) : (s.clearFreq).eoPort = s.eoPort := rfl
@[simp] theorem clearFreq_rspPort (s : State) : (s.clearFreq).rspPort = s.rspPort := rfl
@[simp] theorem clearFreq_hostIn (s : State) : (s.clearFreq).hostIn = s.hostIn := rfl
@[simp] theorem clearFreq_outLog (s : State) : (s.clearFreq).outLog = s.outLog := rfl

/-! ### `State.clearCode` -/

@[simp] theorem clearCode_freq (s : State) : (s.clearCode).freq = s.freq := rfl
@[simp] theorem clearCode_node (s : State) : (s.clearCode).node = s.node := rfl
@[simp] theorem clearCode_code (s : State) : (s.clearCode).code = [] := rfl
@[simp] theorem clearCode_tv (s : State) : (s.clearCode).tv = s.tv := rfl
@[simp] theorem clearCode_cv (s : State) : (s.clearCode).cv = s.cv := rfl
@[simp] theorem clearCode_nleaf (s : State) : (s.clearCode).nleaf = s.nleaf := rfl
@[simp] theorem clearCode_root (s : State) : (s.clearCode).root = s.root := rfl
@[simp] theorem clearCode_mid (s : State) : (s.clearCode).mid = s.mid := rfl
@[simp] theorem clearCode_cur (s : State) : (s.clearCode).cur = s.cur := rfl
@[simp] theorem clearCode_lastErr (s : State) : (s.clearCode).lastErr = s.lastErr := rfl
@[simp] theorem clearCode_eoPort (s : State) : (s.clearCode).eoPort = s.eoPort := rfl
@[simp] theorem clearCode_rspPort (s : State) : (s.clearCode).rspPort = s.rspPort := rfl
@[simp] theorem clearCode_hostIn (s : State) : (s.clearCode).hostIn = s.hostIn := rfl
@[simp] theorem clearCode_outLog (s : State) : (s.clearCode).outLog = s.outLog := rfl

/-! ### `State.setNodes` -/

@[simp] theorem setNodes_freq (s : State) (nodes : List Node) : (s.setNodes nodes).freq = s.freq := rfl
@[simp] theorem setNodes_node (s : State) (nodes : List Node) : (s.setNodes nodes).node = nodes ++ s.node.drop nodes.length := rfl
@[simp] theorem setNodes_code (s : State) (nodes : List Node) : (s.setNodes nodes).code = s.code := rfl
@[simp] theorem setNodes_tv (s : State) (nodes : List Node) : (s.setNodes nodes).tv = s.tv := rfl
@[simp] theorem setNodes_cv (s : State) (nodes : List Node) : (s.setNodes nodes).cv = s.cv := rfl
@[simp] theorem setNodes_nleaf (s : State) (nodes : List Node) : (s.setNodes nodes).nleaf = s.nleaf := rfl
@[simp] theorem setNodes_root (s : State) (nodes : List Node) : (s.setNodes nodes).root = s.root := rfl
@[simp] theorem setNodes_mid (s : State) (nodes : List Node) : (s.setNodes nodes).mid = s.mid := rfl
@[simp] theorem setNodes_cur (s : State) (nodes : List Node) : (s.setNodes nodes).cur = s.cur := rfl
@[simp] theorem setNodes_lastErr (s : State) (nodes : List Node) : (s.setNodes nodes).lastErr = s.lastErr := rfl
@[simp] theorem setNodes_eoPort (s : State) (nodes : List Node) : (s.setNodes nodes).eoPort = s.eoPort := rfl
@[simp] theorem setNodes_rspPort (s : State) (nodes : List Node) : (s.setNodes nodes).rspPort = s.rspPort := rfl
@[simp] theorem setNodes_hostIn (s : State) (nodes : List Node) : (s.setNodes nodes).hostIn = s.hostIn := rfl
@[simp] theorem setNodes_outLog (s : State) (nodes : List Node) : (s.setNodes nodes).outLog = s.outLog := rfl

/-! ### `State.walkToRoot` -/

@[simp] theorem walkToRoot_freq (s : State) : (s.walkToRoot).freq = s.freq := rfl
@[simp] theorem walkToRoot_node (s : State) : (s.walkToRoot).node = s.node := rfl
@[simp] theorem walkToRoot_code (s : State) : (s.walkToRoot).code = s.code := rfl
@[simp] theorem walkToRoot_tv (s : State) : (s.walkToRoot).tv = s.tv := rfl
@[simp] theorem walkToRoot_cv (s : State) : (s.walkToRoot).cv = s.cv := rfl
@[simp] theorem walkToRoot_nleaf (s : State) : (s.walkToRoot).nleaf = s.nleaf := rfl
@[simp] theorem walkToRoot_root (s : State) : (s.walkToRoot).root = s.root := rfl
@[simp] theorem walkToRoot_mid (s : State) : (s.walkToRoot).mid = false := rfl
@[simp] theorem walkToRoot_cur (s : State) : (s.walkToRoot).cur = 0 := rfl
@[simp] theorem walkToRoot_lastErr (s : State) : (s.walkToRoot).lastErr = s.lastErr := rfl
@[simp] theorem walkToRoot_eoPort (s : State) : (s.walkToRoot).eoPort = s.eoPort := rfl
@[simp] theorem walkToRoot_rspPort (s : State) : (s.walkToRoot).rspPort = s.rspPort := rfl
@[simp] theorem walkToRoot_hostIn (s : State) : (s.walkToRoot).hostIn = s.hostIn := rfl
@[simp] theorem walkToRoot_outLog (s : State) : (s.walkToRoot).outLog = s.outLog := rfl

/-! ### `State.walkTo` -/

@[simp] theorem walkTo_freq (s : State) (i : NodeIx) : (s.walkTo i).freq = s.freq := rfl
@[simp] theorem walkTo_node (s : State) (i : NodeIx) : (s.walkTo i).node = s.node := rfl
@[simp] theorem walkTo_code (s : State) (i : NodeIx) : (s.walkTo i).code = s.code := rfl
@[simp] theorem walkTo_tv (s : State) (i : NodeIx) : (s.walkTo i).tv = s.tv := rfl
@[simp] theorem walkTo_cv (s : State) (i : NodeIx) : (s.walkTo i).cv = s.cv := rfl
@[simp] theorem walkTo_nleaf (s : State) (i : NodeIx) : (s.walkTo i).nleaf = s.nleaf := rfl
@[simp] theorem walkTo_root (s : State) (i : NodeIx) : (s.walkTo i).root = s.root := rfl
@[simp] theorem walkTo_mid (s : State) (i : NodeIx) : (s.walkTo i).mid = true := rfl
@[simp] theorem walkTo_cur (s : State) (i : NodeIx) : (s.walkTo i).cur = i := rfl
@[simp] theorem walkTo_lastErr (s : State) (i : NodeIx) : (s.walkTo i).lastErr = s.lastErr := rfl
@[simp] theorem walkTo_eoPort (s : State) (i : NodeIx) : (s.walkTo i).eoPort = s.eoPort := rfl
@[simp] theorem walkTo_rspPort (s : State) (i : NodeIx) : (s.walkTo i).rspPort = s.rspPort := rfl
@[simp] theorem walkTo_hostIn (s : State) (i : NodeIx) : (s.walkTo i).hostIn = s.hostIn := rfl
@[simp] theorem walkTo_outLog (s : State) (i : NodeIx) : (s.walkTo i).outLog = s.outLog := rfl

/-! ### `State.answer` -/

@[simp] theorem answer_freq (s : State) (st : Status) (p : Payload) : (s.answer st p).freq = s.freq := rfl
@[simp] theorem answer_node (s : State) (st : Status) (p : Payload) : (s.answer st p).node = s.node := rfl
@[simp] theorem answer_code (s : State) (st : Status) (p : Payload) : (s.answer st p).code = s.code := rfl
@[simp] theorem answer_tv (s : State) (st : Status) (p : Payload) : (s.answer st p).tv = s.tv := rfl
@[simp] theorem answer_cv (s : State) (st : Status) (p : Payload) : (s.answer st p).cv = s.cv := rfl
@[simp] theorem answer_nleaf (s : State) (st : Status) (p : Payload) : (s.answer st p).nleaf = s.nleaf := rfl
@[simp] theorem answer_root (s : State) (st : Status) (p : Payload) : (s.answer st p).root = s.root := rfl
@[simp] theorem answer_mid (s : State) (st : Status) (p : Payload) : (s.answer st p).mid = s.mid := rfl
@[simp] theorem answer_cur (s : State) (st : Status) (p : Payload) : (s.answer st p).cur = s.cur := rfl
@[simp] theorem answer_lastErr (s : State) (st : Status) (p : Payload) : (s.answer st p).lastErr = s.lastErr := rfl
@[simp] theorem answer_eoPort (s : State) (st : Status) (p : Payload) : (s.answer st p).eoPort = s.eoPort := rfl
@[simp] theorem answer_rspPort (s : State) (st : Status) (p : Payload) : (s.answer st p).rspPort = some (rspWord st p) := rfl
@[simp] theorem answer_hostIn (s : State) (st : Status) (p : Payload) : (s.answer st p).hostIn = s.hostIn := rfl
@[simp] theorem answer_outLog (s : State) (st : Status) (p : Payload) : (s.answer st p).outLog = s.outLog := rfl

/-! ### `State.emitEo` -/

@[simp] theorem emitEo_freq (s : State) (bits : List Bool) : (s.emitEo bits).freq = s.freq := rfl
@[simp] theorem emitEo_node (s : State) (bits : List Bool) : (s.emitEo bits).node = s.node := rfl
@[simp] theorem emitEo_code (s : State) (bits : List Bool) : (s.emitEo bits).code = s.code := rfl
@[simp] theorem emitEo_tv (s : State) (bits : List Bool) : (s.emitEo bits).tv = s.tv := rfl
@[simp] theorem emitEo_cv (s : State) (bits : List Bool) : (s.emitEo bits).cv = s.cv := rfl
@[simp] theorem emitEo_nleaf (s : State) (bits : List Bool) : (s.emitEo bits).nleaf = s.nleaf := rfl
@[simp] theorem emitEo_root (s : State) (bits : List Bool) : (s.emitEo bits).root = s.root := rfl
@[simp] theorem emitEo_mid (s : State) (bits : List Bool) : (s.emitEo bits).mid = s.mid := rfl
@[simp] theorem emitEo_cur (s : State) (bits : List Bool) : (s.emitEo bits).cur = s.cur := rfl
@[simp] theorem emitEo_lastErr (s : State) (bits : List Bool) : (s.emitEo bits).lastErr = s.lastErr := rfl
@[simp] theorem emitEo_eoPort (s : State) (bits : List Bool) : (s.emitEo bits).eoPort = s.eoPort ++ bits := rfl
@[simp] theorem emitEo_rspPort (s : State) (bits : List Bool) : (s.emitEo bits).rspPort = s.rspPort := rfl
@[simp] theorem emitEo_hostIn (s : State) (bits : List Bool) : (s.emitEo bits).hostIn = s.hostIn := rfl
@[simp] theorem emitEo_outLog (s : State) (bits : List Bool) : (s.emitEo bits).outLog = s.outLog := rfl

/-! ### `State.useTree` -/

@[simp] theorem useTree_freq (s : State) (n : Nat) : (s.useTree n).freq = s.freq := rfl
@[simp] theorem useTree_node (s : State) (n : Nat) : (s.useTree n).node = s.node := rfl
@[simp] theorem useTree_code (s : State) (n : Nat) : (s.useTree n).code = s.code := rfl
@[simp] theorem useTree_tv (s : State) (n : Nat) : (s.useTree n).tv = true := rfl
@[simp] theorem useTree_cv (s : State) (n : Nat) : (s.useTree n).cv = s.cv := rfl
@[simp] theorem useTree_nleaf (s : State) (n : Nat) : (s.useTree n).nleaf = BitVec.ofNat 9 n := rfl
@[simp] theorem useTree_root (s : State) (n : Nat) : (s.useTree n).root = BitVec.ofNat 9 (2 * n - 2) := rfl
@[simp] theorem useTree_mid (s : State) (n : Nat) : (s.useTree n).mid = s.mid := rfl
@[simp] theorem useTree_cur (s : State) (n : Nat) : (s.useTree n).cur = s.cur := rfl
@[simp] theorem useTree_lastErr (s : State) (n : Nat) : (s.useTree n).lastErr = s.lastErr := rfl
@[simp] theorem useTree_eoPort (s : State) (n : Nat) : (s.useTree n).eoPort = s.eoPort := rfl
@[simp] theorem useTree_rspPort (s : State) (n : Nat) : (s.useTree n).rspPort = s.rspPort := rfl
@[simp] theorem useTree_hostIn (s : State) (n : Nat) : (s.useTree n).hostIn = s.hostIn := rfl
@[simp] theorem useTree_outLog (s : State) (n : Nat) : (s.useTree n).outLog = s.outLog := rfl

/-! ### `State.releaseTree` -/

@[simp] theorem releaseTree_freq (s : State) : (s.releaseTree).freq = s.freq := rfl
@[simp] theorem releaseTree_node (s : State) : (s.releaseTree).node = s.node := rfl
@[simp] theorem releaseTree_code (s : State) : (s.releaseTree).code = s.code := rfl
@[simp] theorem releaseTree_tv (s : State) : (s.releaseTree).tv = false := rfl
@[simp] theorem releaseTree_cv (s : State) : (s.releaseTree).cv = s.cv := rfl
@[simp] theorem releaseTree_nleaf (s : State) : (s.releaseTree).nleaf = 0 := rfl
@[simp] theorem releaseTree_root (s : State) : (s.releaseTree).root = 0 := rfl
@[simp] theorem releaseTree_mid (s : State) : (s.releaseTree).mid = s.mid := rfl
@[simp] theorem releaseTree_cur (s : State) : (s.releaseTree).cur = s.cur := rfl
@[simp] theorem releaseTree_lastErr (s : State) : (s.releaseTree).lastErr = s.lastErr := rfl
@[simp] theorem releaseTree_eoPort (s : State) : (s.releaseTree).eoPort = s.eoPort := rfl
@[simp] theorem releaseTree_rspPort (s : State) : (s.releaseTree).rspPort = s.rspPort := rfl
@[simp] theorem releaseTree_hostIn (s : State) : (s.releaseTree).hostIn = s.hostIn := rfl
@[simp] theorem releaseTree_outLog (s : State) : (s.releaseTree).outLog = s.outLog := rfl

/-! ### `State.releaseCode` -/

@[simp] theorem releaseCode_freq (s : State) : (s.releaseCode).freq = s.freq := rfl
@[simp] theorem releaseCode_node (s : State) : (s.releaseCode).node = s.node := rfl
@[simp] theorem releaseCode_code (s : State) : (s.releaseCode).code = [] := rfl
@[simp] theorem releaseCode_tv (s : State) : (s.releaseCode).tv = s.tv := rfl
@[simp] theorem releaseCode_cv (s : State) : (s.releaseCode).cv = false := rfl
@[simp] theorem releaseCode_nleaf (s : State) : (s.releaseCode).nleaf = s.nleaf := rfl
@[simp] theorem releaseCode_root (s : State) : (s.releaseCode).root = s.root := rfl
@[simp] theorem releaseCode_mid (s : State) : (s.releaseCode).mid = s.mid := rfl
@[simp] theorem releaseCode_cur (s : State) : (s.releaseCode).cur = s.cur := rfl
@[simp] theorem releaseCode_lastErr (s : State) : (s.releaseCode).lastErr = s.lastErr := rfl
@[simp] theorem releaseCode_eoPort (s : State) : (s.releaseCode).eoPort = s.eoPort := rfl
@[simp] theorem releaseCode_rspPort (s : State) : (s.releaseCode).rspPort = s.rspPort := rfl
@[simp] theorem releaseCode_hostIn (s : State) : (s.releaseCode).hostIn = s.hostIn := rfl
@[simp] theorem releaseCode_outLog (s : State) : (s.releaseCode).outLog = s.outLog := rfl

/-! ### `State.hostDone` -/

@[simp] theorem hostDone_freq (s : State) : (s.hostDone).freq = s.freq := rfl
@[simp] theorem hostDone_node (s : State) : (s.hostDone).node = s.node := rfl
@[simp] theorem hostDone_code (s : State) : (s.hostDone).code = s.code := rfl
@[simp] theorem hostDone_tv (s : State) : (s.hostDone).tv = s.tv := rfl
@[simp] theorem hostDone_cv (s : State) : (s.hostDone).cv = s.cv := rfl
@[simp] theorem hostDone_nleaf (s : State) : (s.hostDone).nleaf = s.nleaf := rfl
@[simp] theorem hostDone_root (s : State) : (s.hostDone).root = s.root := rfl
@[simp] theorem hostDone_mid (s : State) : (s.hostDone).mid = s.mid := rfl
@[simp] theorem hostDone_cur (s : State) : (s.hostDone).cur = s.cur := rfl
@[simp] theorem hostDone_lastErr (s : State) : (s.hostDone).lastErr = s.lastErr := rfl
@[simp] theorem hostDone_eoPort (s : State) : (s.hostDone).eoPort = s.eoPort := rfl
@[simp] theorem hostDone_rspPort (s : State) : (s.hostDone).rspPort = s.rspPort := rfl
@[simp] theorem hostDone_hostIn (s : State) : (s.hostDone).hostIn = s.hostIn.tail := rfl
@[simp] theorem hostDone_outLog (s : State) : (s.hostDone).outLog = s.outLog := rfl

/-! ### `State.log` -/

@[simp] theorem log_freq (s : State) (out : PortOut) : (s.log out).freq = s.freq := rfl
@[simp] theorem log_node (s : State) (out : PortOut) : (s.log out).node = s.node := rfl
@[simp] theorem log_code (s : State) (out : PortOut) : (s.log out).code = s.code := rfl
@[simp] theorem log_tv (s : State) (out : PortOut) : (s.log out).tv = s.tv := rfl
@[simp] theorem log_cv (s : State) (out : PortOut) : (s.log out).cv = s.cv := rfl
@[simp] theorem log_nleaf (s : State) (out : PortOut) : (s.log out).nleaf = s.nleaf := rfl
@[simp] theorem log_root (s : State) (out : PortOut) : (s.log out).root = s.root := rfl
@[simp] theorem log_mid (s : State) (out : PortOut) : (s.log out).mid = s.mid := rfl
@[simp] theorem log_cur (s : State) (out : PortOut) : (s.log out).cur = s.cur := rfl
@[simp] theorem log_lastErr (s : State) (out : PortOut) : (s.log out).lastErr = s.lastErr := rfl
@[simp] theorem log_eoPort (s : State) (out : PortOut) : (s.log out).eoPort = s.eoPort := rfl
@[simp] theorem log_rspPort (s : State) (out : PortOut) : (s.log out).rspPort = s.rspPort := rfl
@[simp] theorem log_hostIn (s : State) (out : PortOut) : (s.log out).hostIn = s.hostIn := rfl
@[simp] theorem log_outLog (s : State) (out : PortOut) : (s.log out).outLog = s.outLog ++ [out] := rfl

/-! ### What is read through the arrays -/

@[simp] theorem freqAt_congr_freq (s : State) (b : Nat) : ({ s with freq := [] } : State).freqAt b = freqUnlisted := rfl
@[simp] theorem codeAt_congr_code (s : State) (b : Nat) : ({ s with code := [] } : State).codeAt b = codeUnlisted := rfl
theorem freqAt_def (s : State) (b : Nat) : s.freqAt b = cellRead freqUnlisted s.freq b := rfl
theorem codeAt_def (s : State) (b : Nat) : s.codeAt b = cellRead codeUnlisted s.code b := rfl
theorem nodeAt_def (s : State) (i : Nat) : s.nodeAt i = nodeIn s.node i := rfl
theorem count_def (s : State) (b : Sym) : s.count b = s.freqAt b.toNat := rfl
theorem entry_def (s : State) (b : Sym) : s.entry b = s.codeAt b.toNat := rfl
theorem nnodes_def (s : State) : s.nnodes = 2 * s.nleaf.toNat - 1 := rfl

end Sys2Proof.Laws
end

