-- ==== Sys2Proof/Laws/Cells.lean ====
section
/-! SUPPORT. The laws of the arrays: read after write, every other index unchanged, the canonical form kept. -/

namespace Sys2Proof.Laws

open Sys2Proof.Machine

variable {α : Type} {dflt : α}

@[simp] theorem cellRead_nil (dflt : α) (a : Nat) : cellRead dflt [] a = dflt := rfl

theorem cellRead_cons (dflt : α) (k : Nat) (v : α) (m : Cells α) (a : Nat) :
    cellRead dflt ((k, v) :: m) a = if a = k then v else cellRead dflt m a := rfl

theorem cellRead_filter_same (m : Cells α) (a : Nat) :
    cellRead dflt (m.filter (fun c => c.1 ≠ a)) a = dflt := by
  induction m with
  | nil => rfl
  | cons c m ih =>
    obtain ⟨k, v⟩ := c
    by_cases h : k = a
    · simpa [h] using ih
    · simpa [List.filter_cons, h, cellRead_cons, Ne.symm h] using ih

theorem cellRead_filter_other (m : Cells α) {a b : Nat} (hab : b ≠ a) :
    cellRead dflt (m.filter (fun c => c.1 ≠ a)) b = cellRead dflt m b := by
  induction m with
  | nil => rfl
  | cons c m ih =>
    obtain ⟨k, v⟩ := c
    by_cases h : k = a
    · simpa [h, cellRead_cons, hab] using ih
    · simpa [List.filter_cons, h, cellRead_cons] using by rw [← ih]; simp

theorem cellRead_insert (m : Cells α) (a b : Nat) (v : α) (h : ∀ c ∈ m, c.1 ≠ a) :
    cellRead dflt (cellInsert a v m) b = if b = a then v else cellRead dflt m b := by
  induction m with
  | nil => rfl
  | cons c m ih =>
    obtain ⟨k, w⟩ := c
    have hk : k ≠ a := h (k, w) (by simp)
    have ih := ih (fun c hc => h c (by simp [hc]))
    by_cases hlt : a < k
    · simp [cellInsert, hlt, cellRead_cons]
    · by_cases hb : b = k
      · simp [cellInsert, hlt, cellRead_cons, hb, hk]
      · simp [cellInsert, hlt, cellRead_cons, hb, ih]

variable [DecidableEq α]

/-- A read after a write: the value at the index written, what was there at every other index. -/
theorem cellRead_write (m : Cells α) (a b : Nat) (v : α) :
    cellRead dflt (cellWrite dflt m a v) b = if b = a then v else cellRead dflt m b := by
  have hne : ∀ c ∈ m.filter (fun c => c.1 ≠ a), c.1 ≠ a := by
    intro c hc
    simpa using (List.mem_filter.1 hc).2
  by_cases hv : v = dflt
  · by_cases hb : b = a
    · simpa [cellWrite, hv, hb] using cellRead_filter_same (dflt := dflt) m a
    · simpa [cellWrite, hv, hb] using cellRead_filter_other (dflt := dflt) m hb
  · rw [cellWrite, if_neg hv, cellRead_insert _ _ _ _ hne]
    by_cases hb : b = a
    · simp [hb]
    · simpa [hb] using cellRead_filter_other (dflt := dflt) m hb

/-! ### The canonical form -/

theorem canonical_nil (dflt : α) (size : Nat) : Canonical dflt size [] :=
  ⟨List.Pairwise.nil, fun _ h => absurd h List.not_mem_nil⟩

theorem mem_cellInsert (m : Cells α) (a : Nat) (v : α) (c : Nat × α) :
    c ∈ cellInsert a v m ↔ c = (a, v) ∨ c ∈ m := by
  induction m with
  | nil => simp [cellInsert]
  | cons d m ih =>
    obtain ⟨k, w⟩ := d
    by_cases hlt : a < k
    · simp [cellInsert, hlt]
    · simp only [cellInsert, hlt, if_false, List.mem_cons, ih]
      tauto

theorem cellInsert_sorted (m : Cells α) (a : Nat) (v : α) (h : m.Pairwise (fun c d => c.1 < d.1))
    (hne : ∀ c ∈ m, c.1 ≠ a) : (cellInsert a v m).Pairwise (fun c d => c.1 < d.1) := by
  induction m with
  | nil => simp [cellInsert]
  | cons d m ih =>
    obtain ⟨k, w⟩ := d
    obtain ⟨hd, hm⟩ := List.pairwise_cons.1 h
    have hka : k ≠ a := hne (k, w) (by simp)
    by_cases hlt : a < k
    · simp only [cellInsert, hlt, if_true]
      refine List.pairwise_cons.2 ⟨fun c hc => ?_, h⟩
      rcases List.mem_cons.1 hc with rfl | hc
      · exact hlt
      · exact lt_trans hlt (hd c hc)
    · simp only [cellInsert, hlt, if_false]
      refine List.pairwise_cons.2 ⟨fun c hc => ?_, ih hm (fun c hc => hne c (by simp [hc]))⟩
      rcases (mem_cellInsert m a v c).1 hc with rfl | hc
      · show k < a
        omega
      · exact hd c hc

/-- A write keeps the canonical form. -/
theorem canonical_write {size : Nat} {m : Cells α} (h : Canonical dflt size m) (a : Nat) (v : α) (ha : a < size) :
    Canonical dflt size (cellWrite dflt m a v) := by
  obtain ⟨hs, hb⟩ := h
  have hs' := hs.filter (fun c => decide (c.1 ≠ a))
  have hb' : ∀ c ∈ m.filter (fun c => c.1 ≠ a), c.1 < size ∧ c.2 ≠ dflt := fun c hc => hb c (List.mem_filter.1 hc).1
  by_cases hv : v = dflt
  · simpa only [cellWrite, hv, if_true] using (⟨hs', hb'⟩ : Canonical dflt size (m.filter (fun c => c.1 ≠ a)))
  · rw [cellWrite, if_neg hv]
    refine ⟨cellInsert_sorted _ _ _ hs' (fun c hc => by simpa using (List.mem_filter.1 hc).2), fun c hc => ?_⟩
    rcases (mem_cellInsert _ _ _ _).1 hc with rfl | hc
    · exact ⟨ha, hv⟩
    · exact hb' c hc

/-! ### `FREQ` and `CODE` through their accessors -/

/-- `FREQ[a] <- c`, then `FREQ[b]`. -/
theorem freqAt_setFreq (s : State) (a b : Nat) (c : Count) :
    (s.setFreq a c).freqAt b = if b = a then c else s.freqAt b := cellRead_write _ _ _ _

/-- The same by byte values. -/
theorem count_setFreq (s : State) (a b : Sym) (c : Count) :
    (s.setFreq a.toNat c).count b = if b = a then c else s.count b := by
  simp only [count_def, freqAt_setFreq, BitVec.toNat_inj]

/-- One entry written into a table, then an entry read. -/
theorem cellRead_setCode (code : Cells CodeEntry) (sym : Sym) (len : Nat) (bits : Digits) (b : Nat) :
    cellRead codeUnlisted (setCode code sym len bits) b =
      if b = sym.toNat then { valid := true, len := BitVec.ofNat 8 len, bits := bits }
      else cellRead codeUnlisted code b := cellRead_write _ _ _ _

/-- The table of a traversal is in canonical form. -/
theorem canonical_visit (nodes : List Node) (depth i len : Nat) (bits : Digits) (code : Cells CodeEntry)
    (h : Canonical codeUnlisted Config.nsym code) :
    Canonical codeUnlisted Config.nsym (visit nodes depth i len bits code) := by
  induction depth generalizing i len bits code with
  | zero => exact h
  | succ depth ih =>
    rw [visit]
    split
    · exact canonical_write h _ _ (BitVec.isLt _)
    · exact ih _ _ _ _ (ih _ _ _ _ h)

end Sys2Proof.Laws
end

