-- ==== Sys2Proof/Laws/Encoding.lean ====
section
/-! SUPPORT. The fields of a command word and of a response word. -/

namespace Sys2Proof.Laws

open Sys2Proof.Machine

/-! ### Command words -/

@[simp] theorem opField_join (op a : BitVec 8) (d : BitVec 32) : opField (joinFields op a d) = op := by
  ext i hi
  simp only [opField, joinFields, BitVec.getElem_extractLsb', BitVec.getLsbD_append]
  have h1 : ¬ 40 + i < 32 := by omega
  have h2 : ¬ 40 + i - 32 < 8 := by omega
  have h3 : 40 + i - 32 - 8 = i := by omega
  simp [h1, h2, h3, BitVec.getLsbD_eq_getElem hi]

@[simp] theorem aField_join (op a : BitVec 8) (d : BitVec 32) : aField (joinFields op a d) = a := by
  ext i hi
  simp only [aField, joinFields, BitVec.getElem_extractLsb', BitVec.getLsbD_append]
  have h1 : ¬ 32 + i < 32 := by omega
  have h2 : 32 + i - 32 = i := by omega
  simp [h2, hi]

@[simp] theorem dField_join (op a : BitVec 8) (d : BitVec 32) : dField (joinFields op a d) = d := by
  ext i hi
  simp only [dField, joinFields, BitVec.getElem_extractLsb', Nat.zero_add, BitVec.getLsbD_append, hi, if_true,
    BitVec.getLsbD_eq_getElem]

/-- A word is its three fields. -/
theorem join_fields (w : CmdWord) : joinFields (opField w) (aField w) (dField w) = w := by
  refine BitVec.eq_of_getLsbD_eq fun i hi => ?_
  simp only [opField, aField, dField, joinFields, BitVec.getLsbD_append, BitVec.getLsbD_extractLsb']
  by_cases h1 : i < 32
  · simp [h1]
  · by_cases h2 : i - 32 < 8
    · have h3 : 32 + (i - 32) = i := by omega
      simp [h1, h2, h3]
    · have h3 : 40 + (i - 32 - 8) = i := by omega
      have h4 : i - 32 - 8 < 8 := by omega
      simp [h1, h2, h3, h4]

/-- Masking is field by field. -/
theorem join_and (op a op' a' : BitVec 8) (d d' : BitVec 32) :
    joinFields op a d &&& joinFields op' a' d' = joinFields (op &&& op') (a &&& a') (d &&& d') := by
  refine BitVec.eq_of_getLsbD_eq fun i _ => ?_
  simp only [joinFields, BitVec.getLsbD_and, BitVec.getLsbD_append]
  split <;> [rfl; (split <;> rfl)]

/-- Two words are equal exactly when their fields are. -/
theorem join_inj (op a op' a' : BitVec 8) (d d' : BitVec 32) :
    joinFields op a d = joinFields op' a' d' ↔ op = op' ∧ a = a' ∧ d = d' := by
  constructor
  · intro h
    exact ⟨by simpa using congrArg opField h, by simpa using congrArg aField h, by simpa using congrArg dField h⟩
  · rintro ⟨rfl, rfl, rfl⟩
    rfl

@[simp] theorem decode_join (op a : BitVec 8) (d : BitVec 32) : decode (joinFields op a d) = decodeFields op a d := by
  simp [decode]

/-! ### Response words -/

@[simp] theorem rspWord_status (st : Status) (p : Payload) : (rspWord st p).extractLsb' 44 4 = st.code := by
  ext i hi
  simp only [rspWord, BitVec.getElem_extractLsb', BitVec.getLsbD_append]
  have h1 : ¬ 44 + i < 40 := by omega
  have h2 : ¬ 44 + i - 40 < 4 := by omega
  have h3 : 44 + i - 40 - 4 = i := by omega
  simp [h1, h2, h3, BitVec.getLsbD_eq_getElem hi]

@[simp] theorem rspWord_payload (st : Status) (p : Payload) : (rspWord st p).extractLsb' 0 40 = p := by
  ext i hi
  simp only [rspWord, BitVec.getElem_extractLsb', Nat.zero_add, BitVec.getLsbD_append, hi, if_true,
    BitVec.getLsbD_eq_getElem]

/-- A successful response word is its payload, zero-extended. -/
theorem rspWord_ok (p : Payload) : rspWord .ok p = p.setWidth 48 := by
  refine BitVec.eq_of_getLsbD_eq fun i hi => ?_
  simp only [rspWord, Status.code, BitVec.getLsbD_append, BitVec.getLsbD_setWidth]
  by_cases h : i < 40
  · simp [h, hi]
  · simp [h, BitVec.getLsbD_of_ge _ _ (not_lt.1 h)]

/-- The response word of a failure. -/
theorem rspWord_fail (st : Status) : rspWord st 0 = st.code ++ (0 : BitVec 44) := by
  cases st <;> decide

end Sys2Proof.Laws
end

