-- ==== Sys2Proof/Laws/Exec.lean ====
section
/-! SUPPORT. How each meaning ends: every case of it, as `respond` or `raise` of a named state. -/

namespace Sys2Proof.Laws

open Sys2Proof.Machine Sys2Proof.Safety

/-! ### `respond` and `raise` -/

theorem respond_eq (p : Payload) (s : State) : respond p s = .next { s with rspPort := some (p.setWidth 48) } := by
  simp [respond, State.answer, rspWord_ok]

theorem raise_eq (st : Status) (s : State) :
    raise st s = .next { s with lastErr := st.code, rspPort := some (st.code ++ (0 : BitVec 44)) } := by
  simp only [raise, State.answer, rspWord_fail]

theorem raise_failsWith (st : Status) (s : State) : FailsWith st.code (raise st s) s := raise_eq st s

/-- A word that spells no command fails with `ILLEGAL`. -/
theorem acceptWord_illegal {w : CmdWord} {e : IllegalWord} (h : decode w = .error e) (s : State) :
    acceptWord w s = raise .illegal s := by
  simp [acceptWord, h]

theorem acceptWord_legal {w : CmdWord} {i : Instr} (h : decode w = .ok i) (s : State) :
    acceptWord w s = exec i s := by
  simp [acceptWord, h]

/-- The status code of `OK` is 0, of every other status not 0, and none is above 7. -/
theorem status_code_eq_zero (st : Status) : st.code = 0 ↔ st = .ok := by cases st <;> decide
theorem status_code_le (st : Status) : st.code.toNat ≤ 7 := by cases st <;> decide

/-! ### The meanings, case by case -/

theorem execCnt_cases (sym : Sym) (s : State) :
    (s.count sym = Config.countMax ∧ exec (.cnt sym) s = raise .overflow s) ∨
    (s.count sym ≠ Config.countMax ∧ exec (.cnt sym) s = respond 0 (s.setFreq sym.toNat (s.count sym + 1))) := by
  by_cases h : s.count sym = Config.countMax
  · exact .inl ⟨h, by simp [exec, execCnt, h]⟩
  · exact .inr ⟨h, by simp [exec, execCnt, h]⟩

theorem execSetf_eq (sym : Sym) (count : Count) (s : State) :
    exec (.setf sym count) s = respond 0 (s.setFreq sym.toNat count) := rfl

theorem execRdf_eq (sym : Sym) (s : State) : exec (.rdf sym) s = respond (countPayload (s.count sym)) s := rfl

/-- The state a successful `BUILD` answers from. -/
def builtState (s : State) : State :=
  ((s.setNodes (buildArena s.leaves)).useTree s.present.length).clearFreq.releaseCode.walkToRoot

theorem execBuild_cases (s : State) :
    (s.present = [] ∧ exec .build s = raise .emptyInput s) ∨
    (s.present ≠ [] ∧
      exec .build s = respond (buildPayload (builtState s).root (builtState s).nleaf) (builtState s)) := by
  by_cases h : s.present = []
  · exact .inl ⟨h, by simp [exec, execBuild, h]⟩
  · exact .inr ⟨h, by simp only [exec, execBuild, h, if_false]; rfl⟩

theorem nodeReadFailure_cases (idx : NodeIx) (s : State) :
    (s.tv = false ∧ s.nodeReadFailure idx = some .noTree) ∨
    (s.tv = true ∧ s.nnodes ≤ idx.toNat ∧ s.nodeReadFailure idx = some .range) ∨
    (s.tv = true ∧ idx.toNat < s.nnodes ∧ s.nodeReadFailure idx = none) := by
  by_cases ht : s.tv = false
  · exact .inl ⟨ht, by simp [State.nodeReadFailure, ht]⟩
  · have ht' : s.tv = true := by simpa using ht
    by_cases hi : s.nnodes ≤ idx.toNat
    · exact .inr (.inl ⟨ht', hi, by simp [State.nodeReadFailure, ht', hi]⟩)
    · exact .inr (.inr ⟨ht', not_le.1 hi, by simp [State.nodeReadFailure, ht', hi]⟩)

theorem execRdnl_cases (idx : NodeIx) (s : State) :
    (s.tv = false ∧ exec (.rdnl idx) s = raise .noTree s) ∨
    (s.tv = true ∧ s.nnodes ≤ idx.toNat ∧ exec (.rdnl idx) s = raise .range s) ∨
    (s.tv = true ∧ idx.toNat < s.nnodes ∧ exec (.rdnl idx) s = respond (linksPayload (s.nodeAt idx.toNat)) s) := by
  rcases nodeReadFailure_cases idx s with ⟨ht, h⟩ | ⟨ht, hi, h⟩ | ⟨ht, hi, h⟩
  · exact .inl ⟨ht, by simp [exec, execRdnl, h]⟩
  · exact .inr (.inl ⟨ht, hi, by simp [exec, execRdnl, h]⟩)
  · exact .inr (.inr ⟨ht, hi, by simp [exec, execRdnl, h]⟩)

theorem execRdnw_cases (idx : NodeIx) (s : State) :
    (s.tv = false ∧ exec (.rdnw idx) s = raise .noTree s) ∨
    (s.tv = true ∧ s.nnodes ≤ idx.toNat ∧ exec (.rdnw idx) s = raise .range s) ∨
    (s.tv = true ∧ idx.toNat < s.nnodes ∧ exec (.rdnw idx) s = respond (s.nodeAt idx.toNat).w s) := by
  rcases nodeReadFailure_cases idx s with ⟨ht, h⟩ | ⟨ht, hi, h⟩ | ⟨ht, hi, h⟩
  · exact .inl ⟨ht, by simp [exec, execRdnw, h]⟩
  · exact .inr (.inl ⟨ht, hi, by simp [exec, execRdnw, h]⟩)
  · exact .inr (.inr ⟨ht, hi, by simp [exec, execRdnw, h]⟩)

theorem execDerive_cases (s : State) :
    (s.tv = false ∧ exec .derive s = raise .noTree s) ∨
    (s.tv = true ∧ exec .derive s = respond 0 { s with code := s.derivedCode, cv := true }) := by
  by_cases h : s.tv = false
  · exact .inl ⟨h, by simp [exec, execDerive, h]⟩
  · exact .inr ⟨by simpa using h, by simp [exec, execDerive, h]⟩

theorem execRdcl_eq (sym : Sym) (s : State) : exec (.rdcl sym) s = respond (codeLenPayload (s.entry sym)) s := rfl

theorem execRdcb_eq (sym : Sym) (k : Chunk) (s : State) :
    exec (.rdcb sym k) s = respond (chunkPayload (s.entry sym) k) s := rfl

theorem execEnc_cases (sym : Sym) (s : State) :
    ((s.entry sym).valid = false ∧ exec (.enc sym) s = raise .unknownSymbol s) ∨
    ((s.entry sym).valid = true ∧
      exec (.enc sym) s = respond (lenPayload (s.entry sym).len) (s.emitEo (codeDigits (s.entry sym)))) := by
  by_cases h : (s.entry sym).valid = false
  · exact .inl ⟨h, by simp [exec, execEnc, h]⟩
  · exact .inr ⟨by simpa using h, by simp [exec, execEnc, h]⟩

/-- The node a `DBIT` moves to. -/
def nextNode (bit : Bool) (s : State) : NodeIx := childOf (s.nodeAt s.here.toNat) bit

theorem execDbit_cases (bit : Bool) (s : State) :
    (s.tv = false ∧ exec (.dbit bit) s = raise .noTree s) ∨
    (s.tv = true ∧ s.nleaf = 1 ∧ exec (.dbit bit) s = respond (emitPayload (s.nodeAt 0).sym) s) ∨
    (s.tv = true ∧ s.nleaf ≠ 1 ∧ (s.nodeAt (nextNode bit s).toNat).tag = .leaf ∧
      exec (.dbit bit) s = respond (emitPayload (s.nodeAt (nextNode bit s).toNat).sym) s.walkToRoot) ∨
    (s.tv = true ∧ s.nleaf ≠ 1 ∧ (s.nodeAt (nextNode bit s).toNat).tag = .internal ∧
      exec (.dbit bit) s = respond 0 (s.walkTo (nextNode bit s))) := by
  by_cases ht : s.tv = false
  · exact .inl ⟨ht, by simp [exec, execDbit, ht]⟩
  · have ht' : s.tv = true := by simpa using ht
    by_cases hn : s.nleaf = 1
    · exact .inr (.inl ⟨ht', hn, by simp [exec, execDbit, ht', hn]⟩)
    · cases hg : (s.nodeAt (nextNode bit s).toNat).tag with
      | leaf =>
        refine .inr (.inr (.inl ⟨ht', hn, rfl, ?_⟩))
        unfold nextNode at hg ⊢
        simp only [exec, execDbit, ht', hn, hg, if_false, Bool.true_eq_false]
      | internal =>
        refine .inr (.inr (.inr ⟨ht', hn, rfl, ?_⟩))
        unfold nextNode at hg ⊢
        simp only [exec, execDbit, ht', hn, hg, if_false, Bool.true_eq_false]

theorem execDend_cases (s : State) :
    (s.tv = false ∧ exec .dend s = raise .noTree s) ∨
    (s.tv = true ∧ s.mid = true ∧ exec .dend s = raise .truncatedStream s.walkToRoot) ∨
    (s.tv = true ∧ s.mid = false ∧ exec .dend s = respond 0 s) := by
  by_cases ht : s.tv = false
  · exact .inl ⟨ht, by simp [exec, execDend, ht]⟩
  · have ht' : s.tv = true := by simpa using ht
    cases hm : s.mid with
    | false => exact .inr (.inr ⟨ht', rfl, by simp [exec, execDend, ht', hm]⟩)
    | true => exact .inr (.inl ⟨ht', rfl, by simp [exec, execDend, ht', hm]⟩)

theorem execNop_eq (s : State) : exec .nop s = respond 0 s := rfl

theorem execClr_eq (s : State) :
    exec .clr s = respond 0 { s.clearFreq.releaseCode.releaseTree.walkToRoot with lastErr := 0 } := rfl

theorem execRdst_eq (s : State) : exec .rdst s = respond s.statusView s := rfl

/-! ### The step, case by case -/

theorem step_idle {s : State} (h : s.hostIn = []) : step s = .next s := by simp [step, h]

theorem step_reset {s : State} {rest : List HostAction} (h : s.hostIn = .reset :: rest) :
    step s = .next { State.reset with hostIn := rest, outLog := s.outLog } := by
  simp [step, h, resetStep]

theorem cmdReady_iff (s : State) : s.cmdReady = true ↔ s.eoPort = [] ∧ s.rspPort = none := by
  simp [State.cmdReady]

theorem step_offer {s : State} {w : CmdWord} {rest : List HostAction} (h : s.hostIn = .offerCmd w :: rest) :
    step s = if s.cmdReady then acceptWord w { s with hostIn := rest } else .next s := by
  simp [step, h, offerStep, State.hostDone]

theorem step_takeEo {s : State} {rest : List HostAction} (h : s.hostIn = .takeEo :: rest) :
    (s.eoPort = [] ∧ step s = .next s) ∨
    (∃ b bits, s.eoPort = b :: bits ∧
      step s = .next { s with eoPort := bits, hostIn := rest, outLog := s.outLog ++ [.eo b] }) := by
  cases he : s.eoPort with
  | nil => exact .inl ⟨rfl, by simp [step, h, takeEoStep, he]⟩
  | cons b bits => exact .inr ⟨b, bits, rfl, by simp [step, h, takeEoStep, he, State.log, State.hostDone]⟩

theorem step_takeRsp {s : State} {rest : List HostAction} (h : s.hostIn = .takeRsp :: rest) :
    ((s.eoPort ≠ [] ∨ s.rspPort = none) ∧ step s = .next s) ∨
    (∃ r, s.eoPort = [] ∧ s.rspPort = some r ∧
      step s = .next { s with rspPort := none, hostIn := rest, outLog := s.outLog ++ [.rsp r] }) := by
  cases he : s.eoPort with
  | cons b bits =>
    exact .inl ⟨.inl (by simp), by simp [step, h, takeRspStep, State.rspData, State.rspValid, he]⟩
  | nil =>
    cases hr : s.rspPort with
    | none => exact .inl ⟨.inr rfl, by simp [step, h, takeRspStep, State.rspData, State.rspValid, he, hr]⟩
    | some r =>
      exact .inr ⟨r, rfl, rfl,
        by simp [step, h, takeRspStep, State.rspData, State.rspValid, he, hr, State.log, State.hostDone]⟩

end Sys2Proof.Laws
end

