-- ==== Sys2Proof/Laws/PerInstr.lean ====
section
/-! SUPPORT. Statements for all commands, one lemma for each constructor. -/

namespace Sys2Proof.Laws.TableRow

open Sys2Proof

/-- The command's word matches the row of the opcode map (30_encoding.md R84) that bears its mnemonic. -/
def Statement (i : Instr) : Prop := ∃ row ∈ opcodeRows, row.mnemonic = i.mnemonic ∧ row.accepts (encode i) = true

/-- A word matches a row when its fields match the row's fields. -/
theorem accepts_of_fields {name : String} {pattern mask : CmdWord} (op a op' a' om am : BitVec 8) (d d' dm : BitVec 32)
    (hp : pattern = joinFields op' a' d') (hm : mask = joinFields om am dm)
    (ho : op &&& om = op') (ha : a &&& am = a') (hd : d &&& dm = d') :
    OpcodeRow.accepts ⟨name, pattern, mask⟩ (joinFields op a d) = true := by
  simp only [OpcodeRow.accepts, hp, hm, join_and, ho, ha, hd, beq_self_eq_true]

/-- A 9-bit index has no bit in the reserved part of `D`. -/
theorem index_reserved (idx : NodeIx) : idx.setWidth 32 &&& (0xFFFFFE00 : BitVec 32) = 0 := by
  revert idx
  decide +kernel

/-- A 3-bit chunk number has no bit in the reserved part of `D`. -/
theorem chunk_reserved (k : Chunk) : k.setWidth 32 &&& (0xFFFFFFF8 : BitVec 32) = 0 := by
  revert k
  decide

theorem nop : Statement .nop := by unfold Statement; decide
theorem clr : Statement .clr := by unfold Statement; decide

theorem cnt (sym : Sym) : Statement (.cnt sym) :=
  ⟨⟨"CNT", 0x020000000000, 0xFF00FFFFFFFF⟩, by decide, rfl,
    accepts_of_fields 0x02 sym 0x02 0 0xFF 0 0 0 0xFFFFFFFF (by decide) (by decide) (by decide) (by simp) (by decide)⟩

theorem setf (sym : Sym) (count : Count) : Statement (.setf sym count) :=
  ⟨⟨"SETF", 0x030000000000, 0xFF0000000000⟩, by decide, rfl,
    accepts_of_fields 0x03 sym 0x03 0 0xFF 0 count 0 0 (by decide) (by decide) (by decide) (by simp) (by simp)⟩

theorem build : Statement .build := by unfold Statement; decide
theorem derive : Statement .derive := by unfold Statement; decide

theorem enc (sym : Sym) : Statement (.enc sym) :=
  ⟨⟨"ENC", 0x060000000000, 0xFF00FFFFFFFF⟩, by decide, rfl,
    accepts_of_fields 0x06 sym 0x06 0 0xFF 0 0 0 0xFFFFFFFF (by decide) (by decide) (by decide) (by simp) (by decide)⟩

theorem dbit (bit : Bool) : Statement (.dbit bit) := by cases bit <;> (unfold Statement; decide)
theorem dend : Statement .dend := by unfold Statement; decide
theorem rdst : Statement .rdst := by unfold Statement; decide

theorem rdf (sym : Sym) : Statement (.rdf sym) :=
  ⟨⟨"RDF", 0x110000000000, 0xFF00FFFFFFFF⟩, by decide, rfl,
    accepts_of_fields 0x11 sym 0x11 0 0xFF 0 0 0 0xFFFFFFFF (by decide) (by decide) (by decide) (by simp) (by decide)⟩

theorem rdnl (idx : NodeIx) : Statement (.rdnl idx) :=
  ⟨⟨"RDNL", 0x120000000000, 0xFFFFFFFFFE00⟩, by decide, rfl,
    accepts_of_fields 0x12 0 0x12 0 0xFF 0xFF (idx.setWidth 32) 0 0xFFFFFE00 (by decide) (by decide) (by decide)
      (by decide) (index_reserved idx)⟩

theorem rdnw (idx : NodeIx) : Statement (.rdnw idx) :=
  ⟨⟨"RDNW", 0x130000000000, 0xFFFFFFFFFE00⟩, by decide, rfl,
    accepts_of_fields 0x13 0 0x13 0 0xFF 0xFF (idx.setWidth 32) 0 0xFFFFFE00 (by decide) (by decide) (by decide)
      (by decide) (index_reserved idx)⟩

theorem rdcl (sym : Sym) : Statement (.rdcl sym) :=
  ⟨⟨"RDCL", 0x140000000000, 0xFF00FFFFFFFF⟩, by decide, rfl,
    accepts_of_fields 0x14 sym 0x14 0 0xFF 0 0 0 0xFFFFFFFF (by decide) (by decide) (by decide) (by simp) (by decide)⟩

theorem rdcb (sym : Sym) (k : Chunk) : Statement (.rdcb sym k) :=
  ⟨⟨"RDCB", 0x150000000000, 0xFF00FFFFFFF8⟩, by decide, rfl,
    accepts_of_fields 0x15 sym 0x15 0 0xFF 0 (k.setWidth 32) 0 0xFFFFFFF8 (by decide) (by decide) (by decide)
      (by simp) (chunk_reserved k)⟩

end Sys2Proof.Laws.TableRow
end

