-- ==== Sys2Proof/Laws/TreeBuilder.lean ====
section
/-! SUPPORT. The merge loop of BUILD: what the priority collection gives, what a round adds, one induction for all. -/

namespace Sys2Proof.Laws

open Sys2Proof.Machine

/-! ### Arenas -/

theorem nodeIn_append_left {nodes more : List Node} {i : Nat} (h : i < nodes.length) :
    nodeIn (nodes ++ more) i = nodeIn nodes i := by
  simp [nodeIn, List.getElem?_append_left h]

@[simp] theorem nodeIn_append_new (nodes : List Node) (n : Node) : nodeIn (nodes ++ [n]) nodes.length = n := by
  simp [nodeIn]

/-- An arena that grows keeps the entries it had. -/
theorem nodeIn_of_isPrefix {nodes more : List Node} (h : nodes <+: more) {i : Nat} (hi : i < nodes.length) :
    nodeIn more i = nodeIn nodes i := by
  obtain ⟨rest, rfl⟩ := h
  exact nodeIn_append_left hi

theorem nodeAt_setNodes {s : State} {nodes : List Node} {i : Nat} (h : i < nodes.length) :
    (s.setNodes nodes).nodeAt i = nodeIn nodes i := nodeIn_append_left h

/-! ### The order of R113 -/

theorem before_iff (nodes : List Node) (i j : Nat) :
    before nodes i j = true ↔ (nodeIn nodes i).w.toNat < (nodeIn nodes j).w.toNat ∨
      ((nodeIn nodes i).w.toNat = (nodeIn nodes j).w.toNat ∧ i < j) := by
  simp [before, BitVec.lt_def, ← BitVec.toNat_inj]

theorem before_trans {nodes : List Node} {i j k : Nat} (h : before nodes i j = true) (h' : before nodes j k = true) :
    before nodes i k = true := by
  rw [before_iff] at *
  omega

theorem before_total (nodes : List Node) {i j : Nat} (h : i ≠ j) :
    before nodes i j = true ∨ before nodes j i = true := by
  rw [before_iff, before_iff]
  omega

theorem not_before_self (nodes : List Node) (i : Nat) : before nodes i i = false := by
  have := before_iff nodes i i
  cases h : before nodes i i with
  | false => rfl
  | true => rw [h] at this; simp at this

/-! ### The priority collection -/

theorem extractMin_eq_none {nodes : List Node} {q : List Nat} : extractMin nodes q = none ↔ q = [] := by
  cases q with
  | nil => simp [extractMin]
  | cons i q =>
    simp only [extractMin]
    split
    · simp
    · split <;> simp

/-- What is extracted and what is left are the collection. -/
theorem extractMin_perm {nodes : List Node} {q rest : List Nat} {m : Nat} (h : extractMin nodes q = some (m, rest)) :
    (m :: rest).Perm q := by
  induction q generalizing m rest with
  | nil => simp [extractMin] at h
  | cons i q ih =>
    rw [extractMin] at h
    split at h
    · rename_i hq
      obtain ⟨rfl, rfl⟩ : i = m ∧ [] = rest := by simpa using h
      rw [extractMin_eq_none.1 hq]
    · rename_i m' rest' hq
      split at h
      · obtain ⟨rfl, rfl⟩ : i = m ∧ q = rest := by simpa using h
        exact List.Perm.refl _
      · obtain ⟨rfl, rfl⟩ : m' = m ∧ i :: rest' = rest := by simpa using h
        exact (List.Perm.swap i m' rest').trans ((ih hq).cons i)

/-- What is extracted comes before everything left. -/
theorem extractMin_least {nodes : List Node} {q rest : List Nat} {m : Nat} (h : extractMin nodes q = some (m, rest))
    (hq : q.Nodup) : ∀ j ∈ rest, before nodes m j = true := by
  induction q generalizing m rest with
  | nil => simp [extractMin] at h
  | cons i q ih =>
    obtain ⟨hi, hq⟩ := List.nodup_cons.1 hq
    rw [extractMin] at h
    split at h
    · obtain ⟨rfl, rfl⟩ : i = m ∧ [] = rest := by simpa using h
      simp
    · rename_i m' rest' hx
      have hp := extractMin_perm hx
      have hleast := ih hx hq
      split at h
      · rename_i hb
        obtain ⟨rfl, rfl⟩ : i = m ∧ q = rest := by simpa using h
        intro j hj
        rcases List.mem_cons.1 (hp.mem_iff.2 hj) with rfl | hj'
        · exact hb
        · exact before_trans hb (hleast j hj')
      · rename_i hb
        obtain ⟨rfl, rfl⟩ : m' = m ∧ i :: rest' = rest := by simpa using h
        intro j hj
        rcases List.mem_cons.1 hj with rfl | hj'
        · have hne : j ≠ m' := fun e => hi (e ▸ hp.mem_iff.1 (by simp))
          exact (before_total nodes hne).resolve_left hb
        · exact hleast j hj'

theorem extractMin_length {nodes : List Node} {q rest : List Nat} {m : Nat} (h : extractMin nodes q = some (m, rest)) :
    q.length = rest.length + 1 := by
  simpa using (extractMin_perm h).length_eq.symm

/-! ### The merge loop -/

/-- One induction for the loop: what a round keeps, all rounds keep. -/
theorem mergeRounds_induct (P : List Node → List Nat → Prop)
    (round : ∀ nodes q a q₁ b q₂, P nodes q → extractMin nodes q = some (a, q₁) → extractMin nodes q₁ = some (b, q₂) →
      P (nodes ++ [mergedNode nodes a b]) (q₂ ++ [nodes.length]))
    (rounds : Nat) (nodes : List Node) (q : List Nat) (hq : rounds < q.length) (h : P nodes q) :
    ∃ q', P (mergeRounds rounds nodes q) q' ∧ q'.length + rounds = q.length := by
  induction rounds generalizing nodes q with
  | zero => exact ⟨q, h, by simp⟩
  | succ rounds ih =>
    cases h₁ : extractMin nodes q with
    | none => simp [extractMin_eq_none.1 h₁] at hq
    | some p₁ =>
      obtain ⟨a, q₁⟩ := p₁
      cases h₂ : extractMin nodes q₁ with
      | none =>
        have := extractMin_length h₁
        simp [extractMin_eq_none.1 h₂] at this
        omega
      | some p₂ =>
        obtain ⟨b, q₂⟩ := p₂
        have l₁ := extractMin_length h₁
        have l₂ := extractMin_length h₂
        obtain ⟨q', hP, hl⟩ := ih (nodes ++ [mergedNode nodes a b]) (q₂ ++ [nodes.length]) (by simp; omega)
          (round nodes q a q₁ b q₂ h h₁ h₂)
        refine ⟨q', by simpa [mergeRounds, h₁, h₂] using hP, ?_⟩
        simp at hl
        omega

/-- Each round adds one node. -/
theorem mergeRounds_length (rounds : Nat) (nodes : List Node) (q : List Nat) (hq : rounds < q.length) :
    (mergeRounds rounds nodes q).length = nodes.length + rounds := by
  obtain ⟨q', h, hl⟩ := mergeRounds_induct (fun ns p => ns.length + p.length = nodes.length + q.length)
    (fun ns p a q₁ b q₂ h h₁ h₂ => by
      have l₁ := extractMin_length h₁
      have l₂ := extractMin_length h₂
      simp
      omega) rounds nodes q hq rfl
  have h : (mergeRounds rounds nodes q).length + q'.length = nodes.length + q.length := h
  omega

/-- The loop keeps the entries it started with. -/
theorem mergeRounds_isPrefix (rounds : Nat) (nodes : List Node) (q : List Nat) :
    nodes <+: mergeRounds rounds nodes q := by
  induction rounds generalizing nodes q with
  | zero => exact List.prefix_rfl
  | succ rounds ih =>
    rw [mergeRounds]
    split
    · exact List.prefix_rfl
    · split
      · exact List.prefix_rfl
      · exact (List.prefix_append _ _).trans (ih _ _)

/-- `2n - 1` nodes for `n` leaves. -/
theorem buildArena_length {leaves : List Node} (h : leaves ≠ []) :
    (buildArena leaves).length = 2 * leaves.length - 1 := by
  have hpos : 0 < leaves.length := List.length_pos_iff.2 h
  rw [buildArena, mergeRounds_length _ _ _ (by simpa using by omega)]
  omega

/-- The leaves stay the first entries. -/
theorem nodeIn_buildArena_leaf {leaves : List Node} {i : Nat} (h : i < leaves.length) :
    nodeIn (buildArena leaves) i = nodeIn leaves i := nodeIn_of_isPrefix (mergeRounds_isPrefix _ _ _) h

/-! ### The symbols present -/

theorem mem_present (s : State) (b : Nat) : b ∈ s.present ↔ b < 256 ∧ s.freqAt b ≠ 0 := by
  simp [State.present, Config.nsym]

theorem present_sorted (s : State) : s.present.Pairwise (· < ·) :=
  (List.pairwise_lt_range).filter _

theorem present_length_le (s : State) : s.present.length ≤ 256 := by
  simpa [State.present, Config.nsym] using List.length_filter_le (fun b => decide (s.freqAt b ≠ 0)) (List.range Config.nsym)

theorem present_eq_nil (s : State) : s.present = [] ↔ ∀ b : Sym, s.count b = 0 := by
  constructor
  · intro h b
    by_contra hb
    have : b.toNat ∈ s.present := (mem_present s _).2 ⟨b.isLt, hb⟩
    simp [h] at this
  · intro h
    refine List.eq_nil_iff_forall_not_mem.2 fun b hb => ?_
    obtain ⟨hlt, hne⟩ := (mem_present s b).1 hb
    have := h (BitVec.ofNat 8 b)
    rw [count_def, BitVec.toNat_ofNat, Nat.mod_eq_of_lt (by omega)] at this
    exact hne this

@[simp] theorem leaves_length (s : State) : s.leaves.length = s.present.length := by simp [State.leaves]

end Sys2Proof.Laws
end

