-- ==== Sys2Proof/Tests/Slice0.lean ====
section
/-! SUPPORT. Tests with results from spec/95_test_vectors.md and the examples of the command rules, and for every
obligation with hypotheses a witness that meets them. -/

namespace Sys2Proof.Tests

open Sys2Proof.Machine Sys2Proof.Safety

/-! ## Small states -/

/-- The map {a:2, b:3, c:2} of VT3. -/
def counted : State := { State.reset with freq := [(0x61, 2), (0x62, 3), (0x63, 2)] }

/-- The arena of VT3: leaves a, b, c, `NODE[3] = Int(4, L=0, R=2)`, `NODE[4] = Int(7, L=1, R=3)`. -/
def arena3 : List Node :=
  [⟨.leaf, 0x61, 2, 0, 0⟩, ⟨.leaf, 0x62, 3, 0, 0⟩, ⟨.leaf, 0x63, 2, 0, 0⟩, ⟨.internal, 0, 4, 0, 2⟩, ⟨.internal, 0, 7, 1, 3⟩]

/-- VT3 built, not derived (VK3). -/
def built : State := { State.reset with node := arena3, tv := true, nleaf := 3, root := 4 }

/-- The map {a:1, b:2} built by hand from R111 to R114: the smallest tree with an internal node. -/
def twoLeaves : State :=
  { State.reset with node := [⟨.leaf, 0x61, 1, 0, 0⟩, ⟨.leaf, 0x62, 2, 0, 0⟩, ⟨.internal, 0, 3, 0, 1⟩], tv := true, nleaf := 2,
                     root := 2 }

/-- VT3 built and derived, the end state of P1: a = "10", b = "0", c = "11". -/
def derived : State :=
  { built with cv := true, code := [(0x61, ⟨true, 2, 1⟩), (0x62, ⟨true, 1, 0⟩), (0x63, ⟨true, 2, 3⟩)] }

/-- VK5: `derived` in mid-walk at node 3. -/
def midWalk : State := { derived with mid := true, cur := 3 }

/-- VT1 built and derived (VK6): the degenerate tree {a:4} of P2. -/
def degenerate : State :=
  { State.reset with node := [⟨.leaf, 0x61, 4, 0, 0⟩], tv := true, cv := true, nleaf := 1, code := [(0x61, ⟨true, 1, 0⟩)] }

/-- The largest count, of VF8. -/
def fullCount : State := { State.reset with freq := [(0, 0xFFFFFFFF)] }

/-- The state a command leaves. -/
def after (o : Host.Outcome State Fault Refusal) : State :=
  match o with
  | .next t => t
  | .fault f => nomatch f
  | .refused _ => State.reset

/-- The response a command word gets. -/
def response (w : CmdWord) (s : State) : Option RspWord := (after (acceptWord w s)).rspPort

/-! ## Decoding: words of 95_test_vectors.md 2.1, and the example words of the command rules -/

theorem test_decode_nop : decode 0x000000000000 = .ok .nop := by decide
theorem test_decode_clr : decode 0x010000000000 = .ok .clr := by decide
theorem test_decode_cnt : decode 0x026100000000 = .ok (.cnt 0x61) := by decide
theorem test_decode_setf : decode 0x036200000003 = .ok (.setf 0x62 3) := by decide
theorem test_decode_build : decode 0x040000000000 = .ok .build := by decide
theorem test_decode_derive : decode 0x050000000000 = .ok .derive := by decide
theorem test_decode_enc : decode 0x067A00000000 = .ok (.enc 0x7A) := by decide
theorem test_decode_dbit : decode 0x070000000001 = .ok (.dbit true) ∧ decode 0x070000000000 = .ok (.dbit false) := by decide
theorem test_decode_dend : decode 0x080000000000 = .ok .dend := by decide
theorem test_decode_rdst : decode 0x100000000000 = .ok .rdst := by decide
theorem test_decode_rdf : decode 0x116200000000 = .ok (.rdf 0x62) := by decide
theorem test_decode_rdnl : decode 0x1200000001FF = .ok (.rdnl 511) := by decide
theorem test_decode_rdnw : decode 0x130000000004 = .ok (.rdnw 4) := by decide
theorem test_decode_rdcl : decode 0x146100000000 = .ok (.rdcl 0x61) := by decide
theorem test_decode_rdcb : decode 0x156100000007 = .ok (.rdcb 0x61 7) := by decide

/-- VX2 to VX22: words with a reserved bit set or an undefined opcode. -/
theorem test_illegal_words :
    ([0x000000000001, 0x014000000000, 0x026100000001, 0x046100000000, 0x05FF00000000, 0x060000000001, 0x070000000002,
      0x070080000000, 0x080100000000, 0x090000000000, 0x0F0000000000, 0x100100000000, 0x110000000001, 0x120000000200,
      0x130100000000, 0x146100000001, 0x156100000008, 0x160000000000, 0xFFFFFFFFFFFF] : List CmdWord).all
      (fun w => (decode w).toOption.isNone) = true := by decide

theorem test_tableWord : decodeTableWord 48 0x0378FFFFFFFF = some (.setf 0x78 0xFFFFFFFF) := by decide

/-! ## Source commands: one ill-formed term for each check (30_encoding.md R81, R89) -/

theorem test_wf_refuses_missing_operand : (⟨.cnt, []⟩ : SrcCmd).wf = false := by decide
theorem test_wf_refuses_extra_operand : (⟨.nop, [.num 0]⟩ : SrcCmd).wf = false := by decide
theorem test_wf_refuses_wide_sym : (⟨.enc, [.num 256]⟩ : SrcCmd).wf = false := by decide
theorem test_wf_refuses_non_ascii : (⟨.enc, [.chr 'é']⟩ : SrcCmd).wf = false := by decide
theorem test_wf_refuses_wide_count : (⟨.setf, [.chr 'x', .num 0x100000000]⟩ : SrcCmd).wf = false := by decide
theorem test_wf_refuses_wide_bit : (⟨.dbit, [.num 2]⟩ : SrcCmd).wf = false := by decide
theorem test_wf_refuses_wide_index : (⟨.rdnl, [.num 512]⟩ : SrcCmd).wf = false := by decide
theorem test_wf_refuses_wide_chunk : (⟨.rdcb, [.num 0, .num 8]⟩ : SrcCmd).wf = false := by decide
theorem test_wf_refuses_character_number : (⟨.dbit, [.chr 'a']⟩ : SrcCmd).wf = false := by decide

/-- The example of R89. -/
theorem test_line_of_R89 : assembleLine "ENC \"a\" -> OK 2 EO=10" = some [0x066100000000] := by decide +kernel
/-- A line of P3, with a comment. -/
theorem test_line_of_P3 : assembleLine "SETF \"x\", 0xFFFFFFFF ; overflow" = some [0x0378FFFFFFFF] := by decide +kernel

/-! ## One command on a small state -/

/-- VK1. -/
theorem test_nop_keeps_lastErr : after (exec .nop { State.reset with lastErr := 4 }) =
    { State.reset with lastErr := 4, rspPort := some 0 } := by decide
/-- VK8. -/
theorem test_clr : after (exec .clr midWalk) = { State.reset with node := arena3, rspPort := some 0 } := by decide
/-- VF2. -/
theorem test_cnt : (after (exec (.cnt 0x61) { State.reset with freq := [(0x61, 1)] })).freq = [(0x61, 2)] := by decide
/-- VF9. -/
theorem test_cnt_overflow : response 0x020000000000 fullCount = some 0x700000000000 := by decide
/-- VF4. -/
theorem test_setf : (after (exec (.setf 0x62 3) State.reset)).freq = [(0x62, 3)] := by decide
/-- VF6. -/
theorem test_setf_removes : (after (exec (.setf 0x62 0) { State.reset with freq := [(0x62, 3)] })).freq = [] := by decide
/-- VF5. -/
theorem test_rdf : response 0x116200000000 counted = some 0x000000000003 := by decide
/-- VT3. -/
theorem test_build : after (exec .build counted) = { built with rspPort := some 0x000000000803 } := by decide +kernel
/-- P3, second row. -/
theorem test_build_empty : response 0x040000000000 State.reset = some 0x100000000000 := by decide +kernel
/-- VT3. -/
theorem test_rdnl : response 0x120000000004 built = some 0x0000000C0201 := by decide
/-- VQ5. -/
theorem test_rdnl_range : response 0x120000000005 built = some 0x600000000000 := by decide
/-- VT3. -/
theorem test_rdnw : response 0x130000000003 built = some 0x000000000004 := by decide
/-- VM6. -/
theorem test_rdnw_notree : response 0x130000000000 State.reset = some 0x500000000000 := by decide
/-- VC3. -/
theorem test_derive : after (exec .derive built) = { derived with rspPort := some 0 } := by decide +kernel
/-- VC1. -/
theorem test_derive_degenerate :
    (after (exec .derive { degenerate with cv := false, code := [] })).code = degenerate.code := by decide
/-- VC3. -/
theorem test_rdcl : response 0x146100000000 derived = some 0x000000000005 := by decide
/-- VC3. -/
theorem test_rdcb : response 0x156300000000 derived = some 0x000000000003 := by decide
/-- VN1. -/
theorem test_enc : after (exec (.enc 0x61) derived) =
    { derived with eoPort := [true, false], rspPort := some 0x000000000002 } := by decide
/-- VN4. -/
theorem test_enc_unknown : response 0x067A00000000 derived = some 0x200000000000 := by decide
/-- VD2. -/
theorem test_dbit : after (exec (.dbit true) derived) = { midWalk with rspPort := some 0 } := by decide
/-- VD3. -/
theorem test_dbit_emits : after (exec (.dbit false) midWalk) = { derived with rspPort := some 0x000000000161 } := by decide
/-- VD5. -/
theorem test_dend_truncated : after (exec .dend midWalk) =
    { derived with lastErr := 3, rspPort := some 0x300000000000 } := by decide
/-- VD6. -/
theorem test_dend : response 0x080000000000 derived = some 0x000000000000 := by decide
/-- VK5. -/
theorem test_rdst : response 0x100000000000 midWalk = some 0x00000C080307 := by decide
/-- VK6. -/
theorem test_rdst_degenerate : response 0x100000000000 degenerate = some 0x00000000010B := by decide

/-! ## One step of the ports -/

/-- VX4: nothing is cleared (60_exceptions.md R174). -/
theorem test_step_illegal : after (step { midWalk with hostIn := [.offerCmd 0x010000000001] }) =
    { midWalk with lastErr := 4, rspPort := some 0x400000000000 } := by decide
/-- The EO bit leaves before the response (00_scope.md R8). -/
theorem test_step_takeEo :
    after (step { derived with eoPort := [true, false], rspPort := some 2, hostIn := [.takeEo] }) =
    { derived with eoPort := [false], rspPort := some 2, outLog := [.eo true] } := by decide
/-- VM7. -/
theorem test_step_reset : after (step { midWalk with hostIn := [.reset, .takeRsp] }) =
    { State.reset with hostIn := [.takeRsp] } := by decide
theorem test_fetch_runs : after (step (State.reset.withFetchWord 48 0x036200000003)) =
    { State.reset with freq := [(0x62, 3)], rspPort := some 0 } := by decide

/-! ## The small states meet the invariants -/

theorem derived_treeWalkInv : TreeWalkInv derived := ⟨by decide, by decide, by decide⟩
theorem midWalk_treeWalkInv : TreeWalkInv midWalk := ⟨by decide, by decide, by decide⟩
theorem built_treeWalkInv : TreeWalkInv built := ⟨by decide, by decide, by decide⟩
theorem twoLeaves_treeWalkInv : TreeWalkInv twoLeaves := ⟨by decide, by decide, by decide⟩
theorem degenerate_treeWalkInv : TreeWalkInv degenerate := ⟨by decide, by decide, by decide⟩
theorem derived_codeInv : CodeInv derived := by unfold CodeInv; decide +kernel
theorem degenerate_codeInv : CodeInv degenerate := by unfold CodeInv; decide +kernel
theorem reset_codeInv : CodeInv State.reset := by unfold CodeInv; decide +kernel
theorem derived_memory_wf : Memory.wf derived := by decide

/-! ## Witnesses: states and operands that meet the hypotheses of each obligation, at the boundaries of its clauses -/

/-- Did the command answer a next state? -/
def answers (o : Host.Outcome State Fault Refusal) : Bool :=
  match o with
  | .next _ => true
  | .fault _ => false
  | .refused _ => false

theorem eq_next_after {o : Host.Outcome State Fault Refusal} (h : answers o = true) : o = .next (after o) := by
  cases o with
  | next t => rfl
  | fault f => cases f
  | refused r => cases h

theorem witness_EncodeInvertsDecode : decode 0x03FFFFFFFFFF = .ok (.setf 0xFF 0xFFFFFFFF) := by decide

theorem witness_DecodeAgreesWithOpcodeTable :
    (opcodeRows.any (fun row => row.accepts 0x1200000001FF)) = true ∧
    (∀ row ∈ opcodeRows, (0x120000000200 : CmdWord) &&& row.mask ≠ row.pattern) := by decide

theorem witness_UnmatchedWordIsIllegal :
    (∀ row ∈ opcodeRows, (0x070000000002 : CmdWord) &&& row.mask ≠ row.pattern) ∧
    ([0x09, 0x0F, 0x16, 0xFF] : List (BitVec 8)).all
      (fun op => (decide (0x09 ≤ op.toNat) && decide (op.toNat ≤ 0x0F)) || decide (0x16 ≤ op.toNat)) = true := by decide

theorem witness_SourceCommandsAssemble :
    ([⟨.dend, []⟩, ⟨.cnt, [.num 255]⟩, ⟨.rdf, [.chr 'a']⟩, ⟨.setf, [.num 0, .num 0xFFFFFFFF]⟩, ⟨.dbit, [.num 1]⟩,
      ⟨.rdnw, [.num 511]⟩, ⟨.rdcb, [.num 255, .num 7]⟩, ⟨.enc, [.chr (Char.ofNat 127)]⟩] : List SrcCmd).all SrcCmd.wf = true ∧
    ([⟨.dend, [.num 0]⟩, ⟨.cnt, [.num 256]⟩, ⟨.enc, [.chr (Char.ofNat 128)]⟩, ⟨.setf, [.num 0, .num 0x100000000]⟩,
      ⟨.dbit, [.num 2]⟩, ⟨.rdnw, [.num 512]⟩, ⟨.rdcb, [.num 255, .num 8]⟩] : List SrcCmd).any SrcCmd.wf = false := by decide

/-- The reserved bits of the commands with no operand, with only a symbol, an index, a bit, a chunk number. -/
theorem witness_reserved_bits :
    ((1 : BitVec 8) ≠ 0 ∨ (0 : BitVec 32) ≠ 0) ∧ ((0 : BitVec 8) ≠ 0 ∨ (1 : BitVec 32) ≠ 0) ∧
    512 ≤ (512 : BitVec 32).toNat ∧ 2 ≤ (2 : BitVec 32).toNat ∧ 8 ≤ (8 : BitVec 32).toNat := by decide

theorem witness_CntCountsOneOccurrence :
    counted.count 0x61 ≠ 0xFFFFFFFF ∧ fullCount.count 0 = 0xFFFFFFFF ∧
    ({ fullCount with freq := [(0, 0xFFFFFFFE)] } : State).count 0 ≠ 0xFFFFFFFF ∧ (0x62 : Sym) ≠ 0x61 := by decide

/-- A non-empty map, and the BUILD and the CLR on it answer (the hypotheses of the BUILD statements, of RdfReadsCount, of
RdstReadsStatusView and of TableNeverOutlivesTree). -/
theorem witness_BuildCompletes :
    (∃ b : Sym, counted.count b ≠ 0) ∧ exec .build counted = .next (after (exec .build counted)) ∧
    exec .clr counted = .next (after (exec .clr counted)) :=
  ⟨⟨0x61, by decide⟩, eq_next_after (by decide +kernel), eq_next_after (by decide)⟩

theorem witness_CountsAreOccurrences :
    State.reset.cmdReady = true ∧ (∀ b : Sym, State.reset.count b = 0) ∧
    ∀ b : Sym, ([0x61, 0x62, 0x61] : List Sym).count b < 2 ^ 32 :=
  ⟨by decide, fun _ => rfl, fun _ => lt_of_le_of_lt List.count_le_length (by decide)⟩

/-- The two counts that SETF's last clauses are about. -/
theorem witness_SetfSetsCount :
    exec (.setf 0x61 0) counted = .next (after (exec (.setf 0x61 0) counted)) ∧
    exec (.setf 0x61 0xFFFFFFFF) counted = .next (after (exec (.setf 0x61 0xFFFFFFFF) counted)) :=
  ⟨eq_next_after (by decide), eq_next_after (by decide)⟩

theorem witness_BuildOnEmptyMapFails : ∀ b : Sym, State.reset.count b = 0 := fun _ => rfl

/-- The first and the last internal node of VT3. -/
theorem witness_BuildMergesTwoSmallest :
    built.nleaf.toNat ≤ 3 ∧ 3 < built.nnodes ∧ built.nleaf.toNat ≤ 4 ∧ 4 < built.nnodes := by decide

theorem witness_BuildIsFunctionOfCounts :
    (∃ b : Sym, counted.count b ≠ 0) ∧ ∀ b : Sym, ({ midWalk with freq := counted.freq } : State).count b = counted.count b :=
  ⟨⟨0x61, by decide⟩, fun _ => rfl⟩

theorem witness_BuildWeightsNeverDecrease : built.nleaf.toNat ≤ 3 ∧ 3 + 1 < built.nnodes := by decide

/-- No tree; the first index past the tree; the root, the last leaf and the first internal node. -/
theorem witness_RdnlReadsLinks :
    State.reset.tv = false ∧ built.tv = true ∧ 2 * built.nleaf.toNat - 1 ≤ (5 : NodeIx).toNat ∧
    (4 : NodeIx).toNat < 2 * built.nleaf.toNat - 1 ∧ TreeInv built ∧
    (built.nodeAt (2 : NodeIx).toNat).tag = .leaf ∧ (built.nodeAt (3 : NodeIx).toNat).tag = .internal :=
  ⟨by decide, by decide, by decide, by decide, built_treeWalkInv.2.1, by decide, by decide⟩

theorem witness_RdnwReadsWeight :
    State.reset.tv = false ∧ built.tv = true ∧ 2 * built.nleaf.toNat - 1 ≤ (511 : NodeIx).toNat ∧
    (0 : NodeIx).toNat < 2 * built.nleaf.toNat - 1 := by decide

theorem witness_DeriveWritesOnlyTable : State.reset.tv = false ∧ built.tv = true := by decide

/-- Three leaves, and two, the fewest the statement is about. -/
theorem witness_DeriveRecordsRootPaths :
    TreeWalkInv built ∧ built.tv = true ∧ built.nleaf ≠ 1 ∧
    TreeWalkInv twoLeaves ∧ twoLeaves.tv = true ∧ twoLeaves.nleaf ≠ 1 ∧ twoLeaves.nleaf = 2 :=
  ⟨built_treeWalkInv, by decide, by decide, twoLeaves_treeWalkInv, by decide, by decide, by decide⟩

theorem witness_DeriveDegenerateTable : degenerate.tv = true ∧ degenerate.nleaf = 1 := by decide

theorem witness_DerivedTableIsPrefixCode :
    TreeWalkInv built ∧ built.tv = true ∧
    ((after (exec .derive built)).entry 0x61).valid = true ∧ ((after (exec .derive built)).entry 0x62).valid = true ∧
    midWalk.tv = true ∧ midWalk.nleaf = built.nleaf ∧ midWalk.root = built.root ∧
    ∀ i < built.nnodes, midWalk.nodeAt i = built.nodeAt i :=
  ⟨built_treeWalkInv, by decide, by decide +kernel, by decide +kernel, by decide, by decide, by decide, fun _ _ => rfl⟩

theorem witness_RdclReadsLength :
    CodeInv derived ∧ (derived.entry 0x7A).valid = false ∧ CodeInv State.reset ∧ State.reset.cv = false :=
  ⟨derived_codeInv, by decide, reset_codeInv, rfl⟩

/-- An invalid entry; the first digit past a code; digit 255. -/
theorem witness_RdcbReadsChunk :
    CodeInv derived ∧ (derived.entry 0x7A).valid = false ∧
    (derived.entry 0x61).len.toNat ≤ 32 * (0 : Chunk).toNat + 2 ∧
    (derived.entry 0x61).len.toNat ≤ 32 * (7 : Chunk).toNat + 31 :=
  ⟨derived_codeInv, by decide, by decide, by decide⟩

theorem witness_EncEmitsCode :
    (derived.entry 0x61).valid = true ∧ (derived.entry 0x7A).valid = false ∧ CodeInv State.reset ∧ State.reset.cv = false :=
  ⟨by decide, by decide, reset_codeInv, rfl⟩

theorem witness_EncsConcatenatesCodes :
    derived.cmdReady = true ∧ ∀ c ∈ ([0x61, 0x62, 0x63] : List Sym), (derived.entry c).valid = true := by decide

/-- From the root to a leaf, from the root to an internal node, from `CUR` to a leaf. -/
theorem witness_DbitWalksOneEdge :
    State.reset.tv = false ∧ derived.tv = true ∧ derived.nleaf ≠ 1 ∧ TreeWalkInv derived ∧
    (4 : NodeIx) = (if derived.mid = true then derived.cur else derived.root) ∧
    (1 : NodeIx) = (if false = false then (derived.nodeAt (4 : NodeIx).toNat).l else (derived.nodeAt (4 : NodeIx).toNat).r) ∧
    (derived.nodeAt (1 : NodeIx).toNat).tag = .leaf ∧
    (3 : NodeIx) = (if true = false then (derived.nodeAt (4 : NodeIx).toNat).l else (derived.nodeAt (4 : NodeIx).toNat).r) ∧
    (derived.nodeAt (3 : NodeIx).toNat).tag = .internal ∧
    (3 : NodeIx) = (if midWalk.mid = true then midWalk.cur else midWalk.root) :=
  ⟨by decide, by decide, by decide, derived_treeWalkInv, by decide, by decide, by decide, by decide, by decide, by decide⟩

theorem witness_DegenerateTreeEmitsOnEveryBit : degenerate.tv = true ∧ degenerate.nleaf = 1 ∧ FlagInv degenerate := by decide

theorem witness_DendChecksWalkAtRoot :
    State.reset.tv = false ∧ midWalk.tv = true ∧ midWalk.mid = true ∧ derived.tv = true ∧ derived.mid = false := by decide

theorem witness_SymbolWithinNleafBits :
    TreeWalkInv derived ∧ derived.cmdReady = true ∧ derived.tv = true ∧ 2 ≤ derived.nleaf.toNat ∧
    derived.nleaf.toNat - 1 ≤ [true, false].length :=
  ⟨derived_treeWalkInv, by decide, by decide, by decide, by decide⟩

theorem witness_DecodingCodeEmitsItsSymbol :
    TreeWalkInv derived ∧ CodeInv derived ∧ derived.cmdReady = true ∧ derived.cv = true ∧ derived.mid = false ∧
    (derived.entry 0x63).valid = true ∧
    TreeWalkInv degenerate ∧ CodeInv degenerate ∧ (degenerate.entry 0x61).valid = true :=
  ⟨derived_treeWalkInv, derived_codeInv, by decide, by decide, by decide, by decide, degenerate_treeWalkInv,
    degenerate_codeInv, by decide⟩

theorem witness_RoundTripReproducesText :
    ([0x61] : List Sym) ≠ [] ∧ midWalk.cmdReady = true ∧ ∀ b : Sym, ([0x61] : List Sym).count b < 2 ^ 32 :=
  ⟨by decide, by decide, fun _ => lt_of_le_of_lt List.count_le_length (by decide)⟩

theorem witness_EncAndDbitCommute :
    derived.cmdReady = true ∧
    serveAll [.enc 0x61, .dbit true] derived = some (midWalk, [(0x000000000002, [true, false]), (0, [])]) ∧
    AllOk [(0x000000000002, [true, false]), (0, [])] :=
  ⟨by decide, by decide, by unfold AllOk; decide⟩

/-- A failure that changes only `LASTERR`, and the one that also moves the walk. -/
theorem witness_FailureChangesOnlyLastErr :
    acceptWord 0x010000000001 midWalk = .next (after (acceptWord 0x010000000001 midWalk)) ∧
    response 0x010000000001 midWalk = some 0x400000000000 ∧ statusOf 0x400000000000 = 4 ∧
    acceptWord 0x080000000000 midWalk = .next (after (acceptWord 0x080000000000 midWalk)) ∧
    response 0x080000000000 midWalk = some 0x300000000000 ∧ statusOf 0x300000000000 = 3 :=
  ⟨eq_next_after (by decide), by decide, by decide, eq_next_after (by decide), by decide, by decide⟩

theorem witness_SuccessKeepsLastErr :
    response 0x010000000000 midWalk = some 0 ∧ decode 0x010000000000 = .ok .clr ∧
    response 0x000000000000 midWalk = some 0 ∧ decode 0x000000000000 ≠ .ok .clr ∧ statusOf 0 = 0 := by decide

theorem witness_OnlyNamedCommandsWriteState : exec .derive built = .next (after (exec .derive built)) :=
  eq_next_after (by decide +kernel)

theorem witness_ReadsHaveNoSideEffect : isRead (.rdnl 4) = true ∧ response 0x120000000004 built = some 0x0000000C0201 := by
  decide

/-- A reachable kind of state for the invariants, and a step of it that executes a command. -/
theorem witness_StepKeepsInvariants :
    Memory.wf derived ∧ FlagInv derived ∧ TreeWalkInv derived ∧ CodeInv derived ∧
    step { derived with hostIn := [.offerCmd 0x070000000001] } =
      .next (after (step { derived with hostIn := [.offerCmd 0x070000000001] })) :=
  ⟨derived_memory_wf, by decide, derived_treeWalkInv, derived_codeInv, eq_next_after (by decide)⟩

theorem witness_StepKeepsPortOrder :
    PortInv { derived with eoPort := [true, false], rspPort := some 0x000000000002, hostIn := [.takeEo] } ∧
    step { derived with eoPort := [true, false], rspPort := some 0x000000000002, hostIn := [.takeEo] } =
      .next (after (step { derived with eoPort := [true, false], rspPort := some 0x000000000002, hostIn := [.takeEo] })) :=
  ⟨fun _ => ⟨0x000000000002, rfl, by decide⟩, eq_next_after (by decide)⟩

theorem witness_UnreadableNodesDoNotMatter :
    TreeWalkInv derived ∧ SameObservable derived { derived with node := arena3 ++ [default] } ∧
    acceptWord 0x070000000001 derived = .next (after (acceptWord 0x070000000001 derived)) :=
  ⟨derived_treeWalkInv, ⟨rfl, by decide⟩, eq_next_after (by decide)⟩

theorem witness_StepRunsDecodedCommand :
    ({ built with hostIn := [.offerCmd 0x050000000000, .takeRsp] } : State).hostIn =
      .offerCmd 0x050000000000 :: [.takeRsp] ∧
    built.eoPort = [] ∧ built.rspPort = none ∧ decode 0x050000000000 = .ok .derive := by decide

theorem witness_BusyBlockMakesHostWait :
    ({ built with rspPort := some 0, hostIn := [.offerCmd 0] } : State).rspPort ≠ none ∧
    ({ built with eoPort := [true], hostIn := [.takeRsp] } : State).eoPort ≠ [] := by decide

theorem witness_TransfersKeepOutputOrder :
    step { built with rspPort := some 0x803, hostIn := [.takeRsp] } =
      .next (after (step { built with rspPort := some 0x803, hostIn := [.takeRsp] })) := eq_next_after (by decide)

theorem witness_HostRunIsServe :
    derived.cmdReady = true ∧
    serve 0x066100000000 { derived with hostIn := hostServes 0x066100000000 2 ++ [.reset] } =
      some ({ derived with hostIn := hostServes 0x066100000000 2 ++ [.reset] }, 0x000000000002, [true, false]) := by decide

theorem witness_ResetAbandonsEverything :
    ({ midWalk with hostIn := [.reset, .takeEo] } : State).hostIn = .reset :: [.takeEo] := by decide

/-- No bit sent, and all of them. -/
theorem witness_EncCutShortLeavesDigitsSent :
    derived.cmdReady = true ∧ (derived.entry 0x61).valid = true ∧ 0 ≤ (derived.entry 0x61).len.toNat ∧
    2 ≤ (derived.entry 0x61).len.toNat := by decide

end Sys2Proof.Tests
end

section
/-! The shape of every command's answer, its independence of the host's list of actions, and the runs of host transfers;
from them the statements of 00_scope.md: O46 (R6, R203), O53 (R8), O58 (R6, R8, R91). -/

namespace Sys2Proof.Proofs

open Sys2Proof.Machine Sys2Proof.Safety Sys2Proof.Laws

/-! ### Every command answers -/

/-- `o` answers a command executed in `s` (60_exceptions.md R170): a response is offered, EO bits are added only by a
successful command, and the model's own two fields are kept. -/
def AnswersFrom (s : State) (o : Host.Outcome State Fault Refusal) : Prop :=
  ∃ (u : State) (st : Status) (p : Payload), o = .next (u.answer st p) ∧ (u.eoPort = s.eoPort ∨ st = .ok) ∧
    u.hostIn = s.hostIn ∧ u.outLog = s.outLog

theorem answersFrom_respond {s u : State} (p : Payload) (hh : u.hostIn = s.hostIn) (ho : u.outLog = s.outLog) :
    AnswersFrom s (respond p u) := ⟨u, .ok, p, rfl, .inr rfl, hh, ho⟩

theorem answersFrom_raise {s u : State} (st : Status) (he : u.eoPort = s.eoPort) (hh : u.hostIn = s.hostIn)
    (ho : u.outLog = s.outLog) : AnswersFrom s (raise st u) :=
  ⟨{ u with lastErr := st.code }, st, 0, rfl, .inl he, hh, ho⟩

theorem exec_answersFrom (i : Instr) (s : State) : AnswersFrom s (exec i s) := by
  cases i with
  | nop => exact answersFrom_respond _ rfl rfl
  | clr => exact answersFrom_respond _ rfl rfl
  | setf sym count => exact answersFrom_respond _ rfl rfl
  | rdst => exact answersFrom_respond _ rfl rfl
  | rdf sym => exact answersFrom_respond _ rfl rfl
  | rdcl sym => exact answersFrom_respond _ rfl rfl
  | rdcb sym k => exact answersFrom_respond _ rfl rfl
  | cnt sym =>
    obtain ⟨-, h⟩ | ⟨-, h⟩ := execCnt_cases sym s <;> rw [h]
    · exact answersFrom_raise _ rfl rfl rfl
    · exact answersFrom_respond _ rfl rfl
  | build =>
    obtain ⟨-, h⟩ | ⟨-, h⟩ := execBuild_cases s <;> rw [h]
    · exact answersFrom_raise _ rfl rfl rfl
    · exact answersFrom_respond _ rfl rfl
  | derive =>
    obtain ⟨-, h⟩ | ⟨-, h⟩ := execDerive_cases s <;> rw [h]
    · exact answersFrom_raise _ rfl rfl rfl
    · exact answersFrom_respond _ rfl rfl
  | enc sym =>
    obtain ⟨-, h⟩ | ⟨-, h⟩ := execEnc_cases sym s <;> rw [h]
    · exact answersFrom_raise _ rfl rfl rfl
    · exact answersFrom_respond _ rfl rfl
  | dbit bit =>
    obtain ⟨-, h⟩ | ⟨-, -, h⟩ | ⟨-, -, -, h⟩ | ⟨-, -, -, h⟩ := execDbit_cases bit s <;> rw [h]
    · exact answersFrom_raise _ rfl rfl rfl
    · exact answersFrom_respond _ rfl rfl
    · exact answersFrom_respond _ rfl rfl
    · exact answersFrom_respond _ rfl rfl
  | dend =>
    obtain ⟨-, h⟩ | ⟨-, -, h⟩ | ⟨-, -, h⟩ := execDend_cases s <;> rw [h]
    · exact answersFrom_raise _ rfl rfl rfl
    · exact answersFrom_raise _ rfl rfl rfl
    · exact answersFrom_respond _ rfl rfl
  | rdnl idx =>
    obtain ⟨-, h⟩ | ⟨-, -, h⟩ | ⟨-, -, h⟩ := execRdnl_cases idx s <;> rw [h]
    · exact answersFrom_raise _ rfl rfl rfl
    · exact answersFrom_raise _ rfl rfl rfl
    · exact answersFrom_respond _ rfl rfl
  | rdnw idx =>
    obtain ⟨-, h⟩ | ⟨-, -, h⟩ | ⟨-, -, h⟩ := execRdnw_cases idx s <;> rw [h]
    · exact answersFrom_raise _ rfl rfl rfl
    · exact answersFrom_raise _ rfl rfl rfl
    · exact answersFrom_respond _ rfl rfl

/-- Words that spell no command answer too (30_encoding.md R86). -/
theorem acceptWord_answersFrom (w : CmdWord) (s : State) : AnswersFrom s (acceptWord w s) := by
  cases h : decode w with
  | ok i => rw [acceptWord_legal h]; exact exec_answersFrom i s
  | error e => rw [acceptWord_illegal h]; exact answersFrom_raise _ rfl rfl rfl

theorem acceptWord_next (w : CmdWord) (s : State) : ∃ t, acceptWord w s = .next t := by
  obtain ⟨u, st, p, h, -⟩ := acceptWord_answersFrom w s
  exact ⟨_, h⟩

theorem acceptWord_outLog {w : CmdWord} {s t : State} (h : acceptWord w s = .next t) : t.outLog = s.outLog := by
  obtain ⟨u, st, p, hu, -, -, ho⟩ := acceptWord_answersFrom w s
  obtain rfl : u.answer st p = t := by simpa [hu] using h
  simpa using ho

/-- A word accepted with no EO bit waiting leaves the ports in order (00_scope.md R8). -/
theorem acceptWord_portInv {w : CmdWord} {s t : State} (h : acceptWord w s = .next t) (he : s.eoPort = []) :
    PortInv t := by
  obtain ⟨u, st, p, hu, hst, -, -⟩ := acceptWord_answersFrom w s
  obtain rfl : u.answer st p = t := by simpa [hu] using h
  intro hne
  obtain hkept | rfl := hst
  · exact absurd (hkept.trans he) hne
  · exact ⟨rspWord .ok p, rfl, rspWord_status .ok p⟩

/-! ### No command reads the host's actions -/

/-- The outcome with the host's actions replaced by `acts`. -/
def withHostIn (acts : List HostAction) : Host.Outcome State Fault Refusal → Host.Outcome State Fault Refusal
  | .next t => .next { t with hostIn := acts }
  | .fault f => .fault f
  | .refused r => .refused r

section
variable (s : State) (acts : List HostAction)

@[simp] theorem nodeAt_hostIn (i : Nat) : ({ s with hostIn := acts } : State).nodeAt i = s.nodeAt i := rfl
@[simp] theorem here_hostIn : ({ s with hostIn := acts } : State).here = s.here := rfl
@[simp] theorem nodeReadFailure_hostIn (idx : NodeIx) :
    ({ s with hostIn := acts } : State).nodeReadFailure idx = s.nodeReadFailure idx := rfl

/-- A command takes the same branch and does the same whatever the host does next: what its condition reads is by
definition the same in both states. -/
theorem exec_hostIn (i : Instr) : exec i { s with hostIn := acts } = withHostIn acts (exec i s) := by
  cases i with
  | nop => rfl
  | clr => rfl
  | setf sym count => rfl
  | rdst => rfl
  | rdf sym => rfl
  | rdcl sym => rfl
  | rdcb sym k => rfl
  | cnt sym =>
    obtain ⟨hc, h⟩ | ⟨hc, h⟩ := execCnt_cases sym s <;> rw [h]
    · exact if_pos hc
    · exact if_neg hc
  | build =>
    obtain ⟨hc, h⟩ | ⟨hc, h⟩ := execBuild_cases s <;> rw [h]
    · exact if_pos hc
    · exact if_neg hc
  | derive =>
    obtain ⟨hc, h⟩ | ⟨hc, h⟩ := execDerive_cases s <;> rw [h]
    · exact if_pos hc
    · exact if_neg (ne_false_of_eq_true hc)
  | enc sym =>
    obtain ⟨hc, h⟩ | ⟨hc, h⟩ := execEnc_cases sym s <;> rw [h]
    · exact if_pos hc
    · exact if_neg (ne_false_of_eq_true hc)
  | dend =>
    simp only [exec, execDend]
    split
    · rfl
    · split <;> rfl
  | dbit bit =>
    simp only [exec, execDbit, here_hostIn, nodeAt_hostIn]
    split
    · rfl
    · split
      · rfl
      · split <;> rfl
  | rdnl idx => simp only [exec, execRdnl, nodeReadFailure_hostIn]; split <;> rfl
  | rdnw idx => simp only [exec, execRdnw, nodeReadFailure_hostIn]; split <;> rfl

theorem acceptWord_hostIn (w : CmdWord) :
    acceptWord w { s with hostIn := acts } = withHostIn acts (acceptWord w s) := by
  cases h : decode w with
  | ok i => rw [acceptWord_legal h, acceptWord_legal h, exec_hostIn]
  | error e => rw [acceptWord_illegal h, acceptWord_illegal h]; rfl

end

/-! ### Runs of transfers -/

/-- What `serve` answers, taken apart: the executed state with both outputs still waiting. -/
theorem serve_eq_some {w : CmdWord} {s t : State} {r : RspWord} {bits : List Bool}
    (h : serve w s = some (t, r, bits)) :
    ∃ u, acceptWord w s = .next u ∧ u.rspPort = some r ∧ u.eoPort = bits ∧
      t = { u with eoPort := [], rspPort := none } := by
  obtain ⟨u, hu⟩ := acceptWord_next w s
  simp only [serve, hu, Option.map_eq_some_iff, Prod.mk.injEq] at h
  obtain ⟨r', hr, rfl, rfl, rfl⟩ := h
  exact ⟨u, hu, hr, rfl, rfl⟩

theorem run_succ {s t : State} (h : step s = .next t) (k : Nat) : core.run (k + 1) s = core.run k t := by
  simp only [Host.Core.run, core, h]

/-- A host that accepts as many bits as `bits` has gets them in order, and any `more` bits go on waiting. -/
theorem run_takeEos (bits more : List Bool) (rest : List HostAction) (k : Nat) (s : State)
    (he : s.eoPort = bits ++ more) (hh : s.hostIn = List.replicate bits.length .takeEo ++ rest) :
    core.run (bits.length + k) s =
      core.run k { s with eoPort := more, hostIn := rest, outLog := s.outLog ++ bits.map PortOut.eo } := by
  induction bits generalizing s with
  | nil =>
    obtain rfl : s.eoPort = more := he
    obtain rfl : s.hostIn = rest := hh
    simp
  | cons b bits ih =>
    have hstep : step s = .next { s with
        eoPort := bits ++ more
        hostIn := List.replicate bits.length .takeEo ++ rest
        outLog := s.outLog ++ [.eo b] } := by
      obtain ⟨hnil, -⟩ | ⟨b', bits', hcons, h⟩ := step_takeEo hh
      · simp [he] at hnil
      · obtain ⟨rfl, rfl⟩ : b = b' ∧ bits ++ more = bits' := by simpa [he] using hcons
        exact h
    rw [List.length_cons, Nat.add_right_comm, run_succ hstep, ih _ rfl rfl]
    simp

theorem run_takeRsp {s : State} {r : RspWord} {rest : List HostAction} (he : s.eoPort = []) (hr : s.rspPort = some r)
    (hh : s.hostIn = .takeRsp :: rest) :
    core.run 1 s = .next { s with rspPort := none, hostIn := rest, outLog := s.outLog ++ [.rsp r] } := by
  obtain ⟨hwait, -⟩ | ⟨r', -, hr', h⟩ := step_takeRsp hh
  · simp [he, hr] at hwait
  · obtain rfl : r = r' := by simpa [hr] using hr'
    exact run_succ h 0

/-! ### The statements of 00_scope.md -/

/-- Settles O46: every command word answers, and each of the host's other actions has a next state in both of its
branches. -/
theorem stepNeverStops : Obligations.StepNeverStops := by
  refine ⟨fun s => ?_, acceptWord_next⟩
  cases h : s.hostIn with
  | nil => exact ⟨s, step_idle h⟩
  | cons act rest =>
    cases act with
    | offerCmd w =>
      rw [step_offer h]
      split
      · exact acceptWord_next w _
      · exact ⟨s, rfl⟩
    | takeEo => obtain ⟨-, hs⟩ | ⟨b, bits, -, hs⟩ := step_takeEo h <;> exact ⟨_, hs⟩
    | takeRsp => obtain ⟨-, hs⟩ | ⟨r, -, -, hs⟩ := step_takeRsp h <;> exact ⟨_, hs⟩
    | reset => exact ⟨_, step_reset h⟩

/-- Settles O58: the word is executed as in `serve`, whatever the host does afterwards; then the EO bits leave in order
and the response after them. -/
theorem hostRunIsServe : Obligations.HostRunIsServe := by
  intro w s t r bits rest hready hh hserve
  obtain ⟨u, hu, hr, rfl, rfl⟩ := serve_eq_some hserve
  have hexec : step s = .next { u with
      hostIn := List.replicate u.eoPort.length .takeEo ++ (.takeRsp :: rest) } := by
    have hoffer : s.hostIn =
        .offerCmd w :: (List.replicate u.eoPort.length .takeEo ++ (.takeRsp :: rest)) := by simp [hh, hostServes]
    rw [step_offer hoffer, if_pos hready, acceptWord_hostIn, hu]
    rfl
  rw [← acceptWord_outLog hu]
  calc core.run (u.eoPort.length + 2) s
      = core.run (u.eoPort.length + 1)
          { u with hostIn := List.replicate u.eoPort.length .takeEo ++ (.takeRsp :: rest) } := run_succ hexec _
    _ = core.run 1 { u with
          eoPort := []
          hostIn := .takeRsp :: rest
          outLog := u.outLog ++ u.eoPort.map PortOut.eo } :=
        run_takeEos u.eoPort [] (.takeRsp :: rest) 1 _ (List.append_nil _).symm rfl
    _ = _ := run_takeRsp rfl hr rfl

/-- Settles O53: a word is accepted only while no EO bit waits, and transferring an EO bit keeps the response that
waits behind it. -/
theorem stepKeepsPortOrder : Obligations.StepKeepsPortOrder := by
  intro s t hinv hstep
  cases h : s.hostIn with
  | nil =>
    obtain rfl : s = t := by simpa [step_idle h] using hstep
    exact hinv
  | cons act rest =>
    cases act with
    | offerCmd w =>
      rw [step_offer h] at hstep
      split at hstep
      · next hready => exact acceptWord_portInv hstep ((cmdReady_iff s).1 hready).1
      · obtain rfl : s = t := by simpa using hstep
        exact hinv
    | takeEo =>
      obtain ⟨-, hs⟩ | ⟨b, bits, he, hs⟩ := step_takeEo h <;> cases hs.symm.trans hstep
      · exact hinv
      · exact fun _ => hinv (by simp [he])
    | takeRsp =>
      obtain ⟨-, hs⟩ | ⟨r, he, -, hs⟩ := step_takeRsp h <;> cases hs.symm.trans hstep
      · exact hinv
      · exact fun hne => absurd he hne
    | reset =>
      cases (step_reset h).symm.trans hstep
      exact fun hne => absurd rfl hne

end Sys2Proof.Proofs
end

section
/-! What a command can do, once for all commands, and what of it the tree, the table and the walk see; from them the
frame of the commands, O44 (10_state.md R20 to R25, R34). -/

namespace Sys2Proof.Proofs

open Sys2Proof.Machine Sys2Proof.Safety Sys2Proof.Laws

/-! ### What a command leaves -/

/-- Every way a command can end, with the whole state it leaves: a failure (60_exceptions.md R174), or a success with
the writes that are the command's own. -/
inductive Effect : Instr → State → State → Prop
  | fails {i s} (st : Status) (hst : st ≠ .ok) :
      Effect i s (({ s with lastErr := st.code } : State).answer st 0)
  | truncates {s} (ht : s.tv = true) :
      Effect .dend s (({ s.walkToRoot with lastErr := Status.truncatedStream.code } : State).answer .truncatedStream 0)
  | keeps {i s} (p : Payload) (hc : i ≠ .clr) : Effect i s (s.answer .ok p)
  | counts {s} (sym : Sym) : Effect (.cnt sym) s ((s.setFreq sym.toNat (s.count sym + 1)).answer .ok 0)
  | sets {s} (sym : Sym) (count : Count) : Effect (.setf sym count) s ((s.setFreq sym.toNat count).answer .ok 0)
  | emits {s} (sym : Sym) :
      Effect (.enc sym) s ((s.emitEo (codeDigits (s.entry sym))).answer .ok (lenPayload (s.entry sym).len))
  | builds {s} (hp : s.present ≠ []) :
      Effect .build s ((builtState s).answer .ok (buildPayload (builtState s).root (builtState s).nleaf))
  | derives {s} (ht : s.tv = true) :
      Effect .derive s (({ s with code := s.derivedCode, cv := true } : State).answer .ok 0)
  | reachesLeaf {s} (bit : Bool) (p : Payload) : Effect (.dbit bit) s (s.walkToRoot.answer .ok p)
  | reachesInternal {s} (bit : Bool) (ht : s.tv = true) (hn : s.nleaf ≠ 1)
      (hg : (s.nodeAt (nextNode bit s).toNat).tag = .internal) :
      Effect (.dbit bit) s ((s.walkTo (nextNode bit s)).answer .ok 0)
  | clears {s} :
      Effect .clr s (({ s.clearFreq.releaseCode.releaseTree.walkToRoot with lastErr := 0 } : State).answer .ok 0)

theorem effect_of_raise {i : Instr} {s t : State} (st : Status) (hst : st ≠ .ok) (h : raise st s = .next t) :
    Effect i s t := by
  cases h
  exact .fails st hst

theorem effect_of_respond {i : Instr} {s u t : State} {p : Payload} (hu : Effect i s (u.answer .ok p))
    (h : respond p u = .next t) : Effect i s t := by
  cases h
  exact hu

/-- The inversion of `exec`. -/
theorem exec_effect {i : Instr} {s t : State} (h : exec i s = .next t) : Effect i s t := by
  cases i with
  | nop => exact effect_of_respond (.keeps _ (by simp)) h
  | clr => exact effect_of_respond .clears h
  | setf sym count => exact effect_of_respond (.sets sym count) h
  | rdst => exact effect_of_respond (.keeps _ (by simp)) h
  | rdf sym => exact effect_of_respond (.keeps _ (by simp)) h
  | rdcl sym => exact effect_of_respond (.keeps _ (by simp)) h
  | rdcb sym k => exact effect_of_respond (.keeps _ (by simp)) h
  | cnt sym =>
    obtain ⟨-, he⟩ | ⟨-, he⟩ := execCnt_cases sym s <;> rw [he] at h
    · exact effect_of_raise .overflow (by simp) h
    · exact effect_of_respond (.counts sym) h
  | build =>
    obtain ⟨-, he⟩ | ⟨hp, he⟩ := execBuild_cases s <;> rw [he] at h
    · exact effect_of_raise .emptyInput (by simp) h
    · exact effect_of_respond (.builds hp) h
  | derive =>
    obtain ⟨-, he⟩ | ⟨ht, he⟩ := execDerive_cases s <;> rw [he] at h
    · exact effect_of_raise .noTree (by simp) h
    · exact effect_of_respond (.derives ht) h
  | enc sym =>
    obtain ⟨-, he⟩ | ⟨-, he⟩ := execEnc_cases sym s <;> rw [he] at h
    · exact effect_of_raise .unknownSymbol (by simp) h
    · exact effect_of_respond (.emits sym) h
  | dbit bit =>
    obtain ⟨-, he⟩ | ⟨-, -, he⟩ | ⟨-, -, -, he⟩ | ⟨ht, hn, hg, he⟩ := execDbit_cases bit s <;> rw [he] at h
    · exact effect_of_raise .noTree (by simp) h
    · exact effect_of_respond (.keeps _ (by simp)) h
    · exact effect_of_respond (.reachesLeaf bit _) h
    · exact effect_of_respond (.reachesInternal bit ht hn hg) h
  | dend =>
    obtain ⟨-, he⟩ | ⟨ht, -, he⟩ | ⟨-, -, he⟩ := execDend_cases s <;> rw [he] at h
    · exact effect_of_raise .noTree (by simp) h
    · cases h
      exact .truncates ht
    · exact effect_of_respond (.keeps _ (by simp)) h
  | rdnl idx =>
    obtain ⟨-, he⟩ | ⟨-, -, he⟩ | ⟨-, -, he⟩ := execRdnl_cases idx s <;> rw [he] at h
    · exact effect_of_raise .noTree (by simp) h
    · exact effect_of_raise .range (by simp) h
    · exact effect_of_respond (.keeps _ (by simp)) h
  | rdnw idx =>
    obtain ⟨-, he⟩ | ⟨-, -, he⟩ | ⟨-, -, he⟩ := execRdnw_cases idx s <;> rw [he] at h
    · exact effect_of_raise .noTree (by simp) h
    · exact effect_of_raise .range (by simp) h
    · exact effect_of_respond (.keeps _ (by simp)) h

/-- A word that spells no command ends as a failing command does (30_encoding.md R86). -/
theorem acceptWord_effect {w : CmdWord} {s t : State} (h : acceptWord w s = .next t) : ∃ i, Effect i s t := by
  cases hd : decode w with
  | ok i => exact ⟨i, exec_effect (by rwa [acceptWord_legal hd] at h)⟩
  | error e => exact ⟨.nop, effect_of_raise .illegal (by simp) (by rwa [acceptWord_illegal hd] at h)⟩

@[simp] theorem statusOf_rspWord (st : Status) (p : Payload) : statusOf (rspWord st p) = st.code :=
  rspWord_status st p

/-- Settles O44: each way a command can end writes what its own table names. -/
theorem onlyNamedCommandsWriteState : Obligations.OnlyNamedCommandsWriteState := by
  intro i s t h
  cases exec_effect h with
  | fails st hst =>
    have hcode : st.code ≠ 0 := mt (status_code_eq_zero st).1 hst
    simpa using fun _ => .inr hcode
  | truncates ht => simp [Status.code]
  | keeps p hc => simp
  | counts sym => simp
  | sets sym count => simp
  | emits sym => simp
  | builds hp => simp [builtState]
  | derives ht => simp
  | reachesLeaf bit p => simp
  | reachesInternal bit ht hn hg => simp
  | clears => simp

/-! ### What the tree, the table and the walk see of a step -/

/-- `t` has the tree, table and walk of `u`, and `LASTERR` is that of `u` or a status. Counts, ports and the model's own
fields may differ. -/
def SameTree (u t : State) : Prop :=
  t = { u with freq := t.freq, lastErr := t.lastErr, eoPort := t.eoPort, rspPort := t.rspPort, hostIn := t.hostIn,
               outLog := t.outLog } ∧
  (t.lastErr = u.lastErr ∨ t.lastErr.toNat ≤ 7)

/-- The writes to the tree, the table and the walk: one constructor for each group of registers and arrays that is
written together. -/
inductive TreeEffect (s : State) : State → Prop
  | keeps : TreeEffect s s
  | endsWalk : TreeEffect s s.walkToRoot
  | walks (bit : Bool) (ht : s.tv = true) (hn : s.nleaf ≠ 1)
      (hg : (s.nodeAt (nextNode bit s).toNat).tag = .internal) : TreeEffect s (s.walkTo (nextNode bit s))
  | derives (ht : s.tv = true) : TreeEffect s { s with code := s.derivedCode, cv := true }
  | builds (hp : s.present ≠ []) : TreeEffect s (builtState s)
  | clears : TreeEffect s s.clearFreq.releaseCode.releaseTree.walkToRoot
  | resets : TreeEffect s State.reset

theorem effect_treeEffect {i : Instr} {s t : State} (h : Effect i s t) : ∃ u, TreeEffect s u ∧ SameTree u t := by
  cases h with
  | fails st hst => exact ⟨_, .keeps, rfl, .inr (status_code_le st)⟩
  | truncates ht => exact ⟨_, .endsWalk, rfl, .inr (status_code_le _)⟩
  | keeps p hc => exact ⟨_, .keeps, rfl, .inl rfl⟩
  | counts sym => exact ⟨_, .keeps, rfl, .inl rfl⟩
  | sets sym count => exact ⟨_, .keeps, rfl, .inl rfl⟩
  | emits sym => exact ⟨_, .keeps, rfl, .inl rfl⟩
  | builds hp => exact ⟨_, .builds hp, rfl, .inl rfl⟩
  | derives ht => exact ⟨_, .derives ht, rfl, .inl rfl⟩
  | reachesLeaf bit p => exact ⟨_, .endsWalk, rfl, .inl rfl⟩
  | reachesInternal bit ht hn hg => exact ⟨_, .walks bit ht hn hg, rfl, .inl rfl⟩
  | clears => exact ⟨_, .clears, rfl, .inr (by simp)⟩

/-- The inversion of `step` for the invariants of the tree: a transfer writes none of it, an accepted word what its
command writes. -/
theorem step_treeEffect {s t : State} (h : step s = .next t) : ∃ u, TreeEffect s u ∧ SameTree u t := by
  cases hh : s.hostIn with
  | nil =>
    cases (step_idle hh).symm.trans h
    exact ⟨s, .keeps, rfl, .inl rfl⟩
  | cons act rest =>
    cases act with
    | offerCmd w =>
      rw [step_offer hh] at h
      split at h
      · rw [acceptWord_hostIn] at h
        obtain ⟨t', ht'⟩ := acceptWord_next w s
        obtain ⟨i, hi⟩ := acceptWord_effect ht'
        obtain ⟨u, hu, hut, hle⟩ := effect_treeEffect hi
        rw [ht'] at h
        cases h
        refine ⟨u, hu, ?_, hle⟩
        exact congrArg (fun x : State => { x with hostIn := rest }) hut
      · cases h
        exact ⟨s, .keeps, rfl, .inl rfl⟩
    | takeEo =>
      obtain ⟨-, hs⟩ | ⟨b, bits, -, hs⟩ := step_takeEo hh <;> cases hs.symm.trans h <;>
        exact ⟨s, .keeps, rfl, .inl rfl⟩
    | takeRsp =>
      obtain ⟨-, hs⟩ | ⟨r, -, -, hs⟩ := step_takeRsp hh <;> cases hs.symm.trans h <;>
        exact ⟨s, .keeps, rfl, .inl rfl⟩
    | reset =>
      cases (step_reset hh).symm.trans h
      exact ⟨State.reset, .resets, rfl, .inl rfl⟩

end Sys2Proof.Proofs
end

section
/-! The tree of 10_state.md R30 as the commands use it, the merge loop of BUILD that makes it, and what every step keeps
of registers, tree and walk: O50 (R33), O51 (R30, R29), and the reset state, O47 and O48 (R37). -/

namespace Sys2Proof.Proofs

open Sys2Proof.Machine Sys2Proof.Safety Sys2Proof.Laws

theorem mem_drop_range {n m i : Nat} : i ∈ (List.range m).drop n ↔ n ≤ i ∧ i < m := by
  rw [List.range_eq_range', List.drop_range', List.mem_range'_1]
  omega

theorem toNat_ofNat_of_lt {w n : Nat} (h : n < 2 ^ w) : (BitVec.ofNat w n).toNat = n := by
  rw [BitVec.toNat_ofNat, Nat.mod_eq_of_lt h]

theorem nleaf_toNat_ne_one {s : State} (hn : s.nleaf ≠ 1) : s.nleaf.toNat ≠ 1 := fun e => hn (BitVec.eq_of_toNat_eq e)

/-! ### Reading the invariants of a tree in use -/

section
variable {s : State} (h : TreeWalkInv s) (ht : s.tv = true)
include h ht

theorem nleaf_bounds : 1 ≤ s.nleaf.toNat ∧ s.nleaf.toNat ≤ 256 ∧ s.root.toNat = 2 * s.nleaf.toNat - 2 := by
  obtain ⟨⟨-, htree, -⟩, -, -⟩ := h
  exact htree ht

theorem nnodes_eq_root_succ : s.nnodes = s.root.toNat + 1 := by
  obtain ⟨h1, -, hroot⟩ := nleaf_bounds h ht
  rw [nnodes_def]
  omega

theorem leafEntry_of_lt {i : Nat} (hi : i < s.nleaf.toNat) : LeafEntry (s.nodeAt i) := by
  obtain ⟨-, htree, -⟩ := h
  obtain ⟨-, hleaf, -⟩ := htree ht
  exact hleaf i hi

theorem internalEntry_of_le {i : Nat} (hi : i < s.nnodes) (hn : s.nleaf.toNat ≤ i) : InternalEntry s i := by
  obtain ⟨-, htree, -⟩ := h
  obtain ⟨-, -, -, hint, -⟩ := htree ht
  exact hint i hi hn

theorem nleaf_le_of_internal {i : Nat} (hg : (s.nodeAt i).tag = .internal) : s.nleaf.toNat ≤ i := by
  by_contra hlt
  obtain ⟨hleaf, -⟩ := leafEntry_of_lt h ht (not_le.1 hlt)
  simp [hleaf] at hg

theorem lt_nleaf_of_leaf {i : Nat} (hi : i < s.nnodes) (hg : (s.nodeAt i).tag = .leaf) : i < s.nleaf.toNat := by
  by_contra hle
  obtain ⟨hint, -⟩ := internalEntry_of_le h ht hi (not_lt.1 hle)
  simp [hint] at hg

/-- Links go down (R30 (c)). -/
theorem child_lt {i : Nat} (hi : i < s.nnodes) (hg : (s.nodeAt i).tag = .internal) (bit : Bool) :
    (childOf (s.nodeAt i) bit).toNat < i := by
  obtain ⟨-, -, hl, hr, -⟩ := internalEntry_of_le h ht hi (nleaf_le_of_internal h ht hg)
  cases bit
  · exact hl
  · exact hr

/-- A node other than the root is the child of an internal one (R30 (d)). -/
theorem exists_parent {j : Nat} (hj : j < s.root.toNat) :
    ∃ i bit, i < s.nnodes ∧ (s.nodeAt i).tag = .internal ∧ (childOf (s.nodeAt i) bit).toNat = j := by
  have hnn := nnodes_eq_root_succ h ht
  obtain ⟨-, htree, -⟩ := id h
  obtain ⟨-, -, -, -, hcount, -⟩ := htree ht
  have hmem : j ∈ childLinks s := by
    rw [← List.count_pos_iff, hcount j (by omega), if_neg (by omega)]
    exact one_pos
  obtain ⟨i, hi, hlink⟩ := List.mem_flatMap.1 hmem
  obtain ⟨hle, hlt⟩ := mem_drop_range.1 hi
  obtain ⟨hg, -⟩ := internalEntry_of_le h ht hlt hle
  obtain rfl | rfl : j = (s.nodeAt i).l.toNat ∨ j = (s.nodeAt i).r.toNat := by simpa using hlink
  · exact ⟨i, false, hlt, hg, rfl⟩
  · exact ⟨i, true, hlt, hg, rfl⟩

/-- The walk stands on an internal node: the root, or `CUR` (R29). -/
theorem here_internal (hn : s.nleaf ≠ 1) : s.here.toNat < s.nnodes ∧ (s.nodeAt s.here.toNat).tag = .internal := by
  have hnn := nnodes_eq_root_succ h ht
  obtain ⟨h1, -, hroot⟩ := nleaf_bounds h ht
  have hne := nleaf_toNat_ne_one hn
  obtain ⟨-, -, hwalk⟩ := id h
  obtain ⟨hle, hlt⟩ : s.nleaf.toNat ≤ s.here.toNat ∧ s.here.toNat < s.nnodes := by
    cases hm : s.mid with
    | false => simp only [State.here, hm, Bool.false_eq_true, if_false]; omega
    | true =>
      obtain ⟨hcur, hcur'⟩ := hwalk hm
      simp only [State.here, hm, if_true]
      omega
  obtain ⟨hg, -⟩ := internalEntry_of_le h ht hlt hle
  exact ⟨hlt, hg⟩

theorem nextNode_lt_root (bit : Bool) (hn : s.nleaf ≠ 1) : (nextNode bit s).toNat < s.root.toNat := by
  obtain ⟨hlt, hg⟩ := here_internal h ht hn
  have hchild : (nextNode bit s).toNat < s.here.toNat := child_lt h ht hlt hg bit
  have hnn := nnodes_eq_root_succ h ht
  omega

end

/-! ### The merge loop of BUILD -/

/-- The weight of entry `i`, unbounded. -/
def weightIn (nodes : List Node) (i : Nat) : Nat := (nodeIn nodes i).w.toNat

/-- The child links of the entries from `n` on: `childLinks` of an arena. -/
def arenaLinks (n : Nat) (nodes : List Node) : List Nat :=
  ((List.range nodes.length).drop n).flatMap (fun i => [(nodeIn nodes i).l.toNat, (nodeIn nodes i).r.toNat])

/-- Entry `i` merges two distinct earlier ones, its weight their exact sum: `InternalEntry` of an arena. -/
def MergedAt (nodes : List Node) (i : Nat) : Prop :=
  (nodeIn nodes i).tag = .internal ∧ (nodeIn nodes i).sym = 0 ∧
  (nodeIn nodes i).l.toNat < i ∧ (nodeIn nodes i).r.toNat < i ∧ (nodeIn nodes i).l ≠ (nodeIn nodes i).r ∧
  weightIn nodes i = weightIn nodes (nodeIn nodes i).l.toNat + weightIn nodes (nodeIn nodes i).r.toNat

/-- What a round keeps (41_tree_builder.md R112 to R115): every entry is in the collection or the child of exactly one
internal entry, and the collection weighs what the leaves weigh. -/
structure MergeInv (leaves nodes : List Node) (q : List Nat) : Prop where
  length_add : nodes.length + q.length = 2 * leaves.length
  leaves_le : leaves.length ≤ nodes.length
  merged : ∀ i < nodes.length, leaves.length ≤ i → MergedAt nodes i
  links_perm : (arenaLinks leaves.length nodes ++ q).Perm (List.range nodes.length)
  weight_sum : (q.map (weightIn nodes)).sum = (leaves.map (fun n => n.w.toNat)).sum

theorem weightIn_append {nodes : List Node} (n : Node) {i : Nat} (hi : i < nodes.length) :
    weightIn (nodes ++ [n]) i = weightIn nodes i := by
  simp only [weightIn, nodeIn_append_left hi]

theorem arenaLinks_append {n : Nat} {nodes : List Node} (x : Node) (hn : n ≤ nodes.length) :
    arenaLinks n (nodes ++ [x]) = arenaLinks n nodes ++ [x.l.toNat, x.r.toNat] := by
  have hkept : ∀ i ∈ (List.range nodes.length).drop n, nodeIn (nodes ++ [x]) i = nodeIn nodes i := fun i hi =>
    nodeIn_append_left (List.mem_range.1 (List.mem_of_mem_drop hi))
  rw [arenaLinks, List.length_append, List.length_singleton, List.range_succ,
    List.drop_append_of_le_length (by simpa using hn), List.flatMap_append,
    List.flatMap_congr fun i hi => by rw [hkept i hi]]
  simp [arenaLinks]

theorem MergedAt.append {nodes : List Node} {i : Nat} (h : MergedAt nodes i) (x : Node) (hi : i < nodes.length) :
    MergedAt (nodes ++ [x]) i := by
  obtain ⟨hg, hs, hl, hr, hne, hw⟩ := h
  simp only [MergedAt, nodeIn_append_left hi, weightIn_append x hi, weightIn_append x (hl.trans hi),
    weightIn_append x (hr.trans hi)]
  exact ⟨hg, hs, hl, hr, hne, hw⟩

/-- The merge of two entries, as long as indexes fit in 9 bits and the sum in 40. -/
theorem mergedAt_mergedNode {nodes : List Node} {a b : Nat} (ha : a < nodes.length) (hb : b < nodes.length)
    (hab : a ≠ b) (hlen : nodes.length ≤ 511) (hw : weightIn nodes a + weightIn nodes b < 2 ^ 40) :
    MergedAt (nodes ++ [mergedNode nodes a b]) nodes.length := by
  have hla : (BitVec.ofNat 9 a).toNat = a := toNat_ofNat_of_lt (by omega)
  have hlb : (BitVec.ofNat 9 b).toNat = b := toNat_ofNat_of_lt (by omega)
  have hsum : ((nodeIn nodes a).w + (nodeIn nodes b).w).toNat = weightIn nodes a + weightIn nodes b :=
    BitVec.toNat_add_of_lt hw
  refine ⟨by simp [mergedNode], by simp [mergedNode], by simpa [mergedNode, hla] using ha,
    by simpa [mergedNode, hlb] using hb, ?_, ?_⟩
  · simpa [mergedNode] using fun e => hab (by rw [← hla, ← hlb, e])
  · rw [weightIn, nodeIn_append_new, mergedNode, hla, hlb, weightIn_append _ ha, weightIn_append _ hb, hsum]

/-- One round: the two entries taken out become the children of the new one, which goes in. -/
theorem MergeInv.round {leaves nodes : List Node} {q q₁ q₂ : List Nat} {a b : Nat} (h : MergeInv leaves nodes q)
    (hle : leaves.length ≤ 256) (hw : (leaves.map (fun n => n.w.toNat)).sum < 2 ^ 40)
    (h₁ : extractMin nodes q = some (a, q₁)) (h₂ : extractMin nodes q₁ = some (b, q₂)) :
    MergeInv leaves (nodes ++ [mergedNode nodes a b]) (q₂ ++ [nodes.length]) := by
  obtain ⟨hlen, hgrow, hmerged, hlinks, hweight⟩ := h
  have hperm : (a :: b :: q₂).Perm q := ((extractMin_perm h₂).cons a).trans (extractMin_perm h₁)
  have hlq : q.length = q₂.length + 2 := by simpa using hperm.length_eq.symm
  have hnodup : (a :: b :: q₂).Nodup :=
    hperm.nodup_iff.2 ((hlinks.nodup_iff.2 List.nodup_range).sublist (List.sublist_append_right _ _))
  have hlt : ∀ j ∈ a :: b :: q₂, j < nodes.length := fun j hj =>
    List.mem_range.1 (hlinks.mem_iff.1 (List.mem_append_right _ (hperm.mem_iff.1 hj)))
  have ha : a < nodes.length := hlt a (by simp)
  have hb : b < nodes.length := hlt b (by simp)
  have hab : a ≠ b := by
    rintro rfl
    simp at hnodup
  have hsplit : weightIn nodes a + weightIn nodes b + (q₂.map (weightIn nodes)).sum =
      (leaves.map (fun n => n.w.toNat)).sum := by
    rw [← hweight, ← (hperm.map (weightIn nodes)).sum_eq]
    simp [add_assoc]
  have hnew := mergedAt_mergedNode ha hb hab (by omega) (by omega)
  have hla : (mergedNode nodes a b).l.toNat = a := toNat_ofNat_of_lt (by omega)
  have hlb : (mergedNode nodes a b).r.toNat = b := toNat_ofNat_of_lt (by omega)
  refine ⟨by simp; omega, by simp; omega, fun i hi hni => ?_, ?_, ?_⟩
  · obtain hold | rfl : i < nodes.length ∨ i = nodes.length := by simp at hi; omega
    · exact (hmerged i hold hni).append _ hold
    · exact hnew
  · rw [arenaLinks_append _ hgrow, hla, hlb, List.length_append, List.length_singleton, List.range_succ]
    calc arenaLinks leaves.length nodes ++ [a, b] ++ (q₂ ++ [nodes.length])
        = arenaLinks leaves.length nodes ++ (a :: b :: q₂) ++ [nodes.length] := by simp
      List.Perm _ (arenaLinks leaves.length nodes ++ q ++ [nodes.length]) := (hperm.append_left _).append_right _
      List.Perm _ (List.range nodes.length ++ [nodes.length]) := hlinks.append_right _
  · have hkept : q₂.map (weightIn (nodes ++ [mergedNode nodes a b])) = q₂.map (weightIn nodes) :=
      List.map_congr_left fun j hj => weightIn_append _ (hlt j (by simp [hj]))
    obtain ⟨-, -, -, -, -, hwnew⟩ := hnew
    rw [nodeIn_append_new, hla, hlb, weightIn_append _ ha, weightIn_append _ hb] at hwnew
    simp only [List.map_append, List.sum_append, hkept, List.map_cons, List.map_nil, List.sum_cons, List.sum_nil,
      hwnew]
    omega

/-- The leaves of an arena that begins with `leaves` weigh what `leaves` weigh. -/
theorem sum_weightIn_leaves {leaves nodes : List Node} (h : leaves <+: nodes) :
    ((List.range leaves.length).map (weightIn nodes)).sum = (leaves.map (fun n => n.w.toNat)).sum := by
  congr 1
  refine List.ext_getElem (by simp) fun i hi hi' => ?_
  have hlt : i < leaves.length := by simpa using hi'
  simp only [List.getElem_map, List.getElem_range, weightIn, nodeIn_of_isPrefix h hlt]
  simp [nodeIn, hlt]

theorem mergeInv_leaves (leaves : List Node) : MergeInv leaves leaves (List.range leaves.length) where
  length_add := by simp; omega
  leaves_le := le_rfl
  merged := fun i hi hni => absurd hi (not_lt.2 hni)
  links_perm := by simp [arenaLinks, List.drop_eq_nil_of_le]
  weight_sum := sum_weightIn_leaves List.prefix_rfl

/-- After the last round only the root is in the collection. -/
theorem mergeInv_buildArena {leaves : List Node} (hne : leaves ≠ []) (hle : leaves.length ≤ 256)
    (hw : (leaves.map (fun n => n.w.toNat)).sum < 2 ^ 40) :
    MergeInv leaves (buildArena leaves) [2 * leaves.length - 2] := by
  have hpos : 0 < leaves.length := List.length_pos_iff.2 hne
  obtain ⟨q, hq, hlen⟩ := mergeRounds_induct (MergeInv leaves)
    (fun nodes q a q₁ b q₂ h h₁ h₂ => h.round hle hw h₁ h₂) (leaves.length - 1) leaves (List.range leaves.length)
    (by simp; omega) (mergeInv_leaves leaves)
  change MergeInv leaves (buildArena leaves) q at hq
  have hal := buildArena_length hne
  obtain ⟨x, rfl⟩ : ∃ x, q = [x] := List.length_eq_one_iff.1 (by simp at hlen; omega)
  have hroot : 2 * leaves.length - 2 ∈ arenaLinks leaves.length (buildArena leaves) ++ [x] :=
    hq.links_perm.mem_iff.2 (by simp; omega)
  obtain hlink | hx := List.mem_append.1 hroot
  · obtain ⟨i, hi, hmem⟩ := List.mem_flatMap.1 hlink
    obtain ⟨hni, hi⟩ := mem_drop_range.1 hi
    obtain ⟨-, -, hl, hr, -⟩ := hq.merged i hi hni
    simp only [List.mem_cons, List.not_mem_nil, or_false] at hmem
    omega
  · obtain rfl : 2 * leaves.length - 2 = x := by simpa using hx
    exact hq

/-! ### The tree a successful BUILD leaves -/

theorem nodeIn_leaves {s : State} {i : Nat} (hi : i < s.present.length) :
    nodeIn s.leaves i = leafNode s.present[i] (s.freqAt s.present[i]) := by
  simp [nodeIn, State.leaves, hi]

theorem leafEntry_leafNode {b : Nat} {c : Count} (hc : c ≠ 0) : LeafEntry (leafNode b c) := by
  have hw : (c.setWidth 40).toNat = c.toNat := BitVec.toNat_setWidth_of_le (by decide)
  have hpos : c.toNat ≠ 0 := fun e => hc (BitVec.eq_of_toNat_eq e)
  have hlt := c.isLt
  refine ⟨rfl, rfl, rfl, ?_, ?_⟩ <;> simp only [leafNode, hw] <;> omega

theorem leaves_weight_sum_lt (s : State) : (s.leaves.map (fun n => n.w.toNat)).sum < 2 ^ 40 := by
  have hle : ∀ w ∈ s.leaves.map (fun n => n.w.toNat), w ≤ 2 ^ 32 - 1 := by
    intro w hw
    obtain ⟨n, hn, rfl⟩ := List.mem_map.1 hw
    obtain ⟨b, hb, rfl⟩ := List.mem_map.1 hn
    obtain ⟨-, -, -, -, hmax⟩ := leafEntry_leafNode (b := b) ((mem_present s b).1 hb).2
    exact hmax
  have hsum := List.sum_le_card_nsmul _ _ hle
  have hlen := present_length_le s
  simp only [List.length_map, leaves_length, smul_eq_mul] at hsum
  calc _ ≤ s.present.length * (2 ^ 32 - 1) := hsum
    _ ≤ 256 * (2 ^ 32 - 1) := Nat.mul_le_mul_right _ hlen
    _ < 2 ^ 40 := by decide

theorem builtState_nleaf (s : State) : (builtState s).nleaf.toNat = s.present.length := by
  have hle := present_length_le s
  exact toNat_ofNat_of_lt (by omega)

theorem builtState_root (s : State) : (builtState s).root.toNat = 2 * s.present.length - 2 := by
  have hle := present_length_le s
  exact toNat_ofNat_of_lt (by omega)

theorem builtState_nodeAt {s : State} {i : Nat} (hi : i < (buildArena s.leaves).length) :
    (builtState s).nodeAt i = nodeIn (buildArena s.leaves) i := nodeAt_setNodes hi

section
variable {s : State} (hp : s.present ≠ [])
include hp

theorem leaves_ne_nil : s.leaves ≠ [] := fun h => hp (List.map_eq_nil_iff.1 h)

theorem mergeInv_built : MergeInv s.leaves (buildArena s.leaves) [2 * s.present.length - 2] := by
  have hle := present_length_le s
  rw [← leaves_length] at hle ⊢
  exact mergeInv_buildArena (leaves_ne_nil hp) hle (leaves_weight_sum_lt s)

theorem buildArena_leaves_length : (buildArena s.leaves).length = 2 * s.present.length - 1 := by
  rw [buildArena_length (leaves_ne_nil hp), leaves_length]

theorem builtState_nnodes : (builtState s).nnodes = (buildArena s.leaves).length := by
  rw [nnodes_def, builtState_nleaf s, buildArena_leaves_length hp]

theorem builtState_nodeAt_leaf {i : Nat} (hi : i < s.present.length) :
    (builtState s).nodeAt i = leafNode s.present[i] (s.freqAt s.present[i]) := by
  have hlen := buildArena_leaves_length hp
  rw [builtState_nodeAt (by omega), nodeIn_buildArena_leaf (by simpa using hi), nodeIn_leaves hi]

theorem builtState_childLinks : childLinks (builtState s) = arenaLinks s.leaves.length (buildArena s.leaves) := by
  rw [childLinks, builtState_nnodes hp, builtState_nleaf s, ← leaves_length]
  refine List.flatMap_congr fun i hi => ?_
  rw [builtState_nodeAt (mem_drop_range.1 hi).2]

/-- The leaves of R30 (a), ascending. -/
theorem builtState_leaves :
    (∀ i < s.present.length, LeafEntry ((builtState s).nodeAt i)) ∧
    ∀ i < s.present.length, ∀ j < i, ((builtState s).nodeAt j).sym.toNat < ((builtState s).nodeAt i).sym.toNat := by
  have hmem : ∀ (i : Nat) (hi : i < s.present.length), s.present[i] < 256 ∧ s.freqAt s.present[i] ≠ 0 := fun i hi =>
    (mem_present s _).1 (List.getElem_mem hi)
  refine ⟨fun i hi => ?_, fun i hi j hj => ?_⟩
  · rw [builtState_nodeAt_leaf hp hi]
    exact leafEntry_leafNode (hmem i hi).2
  · have hj' := hj.trans hi
    have hlt : s.present[j] < s.present[i] := List.pairwise_iff_getElem.1 (present_sorted s) j i hj' hi hj
    rw [builtState_nodeAt_leaf hp hi, builtState_nodeAt_leaf hp hj', leafNode, leafNode,
      toNat_ofNat_of_lt (hmem j hj').1, toNat_ofNat_of_lt (hmem i hi).1]
    exact hlt

/-- The internal entries of R30 (b), (c), (e). -/
theorem builtState_internal {i : Nat} (hi : i < (buildArena s.leaves).length) (hn : s.present.length ≤ i) :
    InternalEntry (builtState s) i := by
  obtain ⟨hg, hs, hl, hr, hne, hw⟩ := (mergeInv_built hp).merged i hi (by simpa using hn)
  simp only [InternalEntry, builtState_nodeAt hi, builtState_nodeAt (hl.trans hi),
    builtState_nodeAt (hr.trans hi)]
  exact ⟨hg, hs, hl, hr, hne, hw⟩

/-- Every node but the root is the child of exactly one (R30 (d)). -/
theorem builtState_count_childLinks {j : Nat} (hj : j < (buildArena s.leaves).length) :
    (childLinks (builtState s)).count j = if j = (builtState s).root.toNat then 0 else 1 := by
  have hcount := (mergeInv_built hp).links_perm.count_eq j
  rw [List.count_append, List.count_eq_one_of_mem List.nodup_range (List.mem_range.2 hj),
    List.count_singleton] at hcount
  rw [builtState_childLinks hp, builtState_root s]
  by_cases hroot : j = 2 * s.present.length - 2
  · simp only [hroot, beq_self_eq_true, if_true] at hcount ⊢
    omega
  · simpa [hroot, Ne.symm hroot] using hcount

/-- The root weighs what the leaves weigh (R30 (e)). -/
theorem builtState_root_weight :
    ((builtState s).nodeAt (builtState s).root.toNat).w.toNat = leafWeightSum (builtState s) ∧
    ((builtState s).nodeAt (builtState s).root.toNat).w.toNat < 2 ^ 40 := by
  have hpos := List.length_pos_iff.2 hp
  have hlen := buildArena_leaves_length hp
  have hweight : weightIn (buildArena s.leaves) (2 * s.present.length - 2) =
      (s.leaves.map (fun n => n.w.toNat)).sum := by
    simpa using (mergeInv_built hp).weight_sum
  have hsum : leafWeightSum (builtState s) = (s.leaves.map (fun n => n.w.toNat)).sum := by
    rw [leafWeightSum, builtState_nleaf s, ← sum_weightIn_leaves (mergeRounds_isPrefix _ _ _), leaves_length]
    refine congrArg List.sum (List.map_congr_left fun i hi => ?_)
    rw [builtState_nodeAt (by simp at hi; omega)]
    rfl
  refine ⟨?_, BitVec.isLt _⟩
  rw [builtState_root s, builtState_nodeAt (by omega), hsum, ← hweight]
  rfl

theorem builtState_treeInv : TreeInv (builtState s) := by
  obtain ⟨hleaf, hsorted⟩ := builtState_leaves hp
  intro _
  rw [builtState_nnodes hp, builtState_nleaf s]
  exact ⟨by simp [builtState], hleaf, hsorted, fun i hi hn => builtState_internal hp hi hn,
    fun j hj => builtState_count_childLinks hp hj, builtState_root_weight hp⟩

end

/-! ### What every step keeps of registers, tree and walk -/

theorem SameTree.flagInv {u t : State} (h : SameTree u t) (hu : FlagInv u) : FlagInv t := by
  obtain ⟨heq, herr⟩ := h
  obtain ⟨hoff, hon, hroot, hmid, hle⟩ := hu
  have hle' : t.lastErr.toNat ≤ 7 := herr.elim (fun e => e ▸ hle) id
  rw [heq]
  exact ⟨hoff, hon, hroot, hmid, hle'⟩

theorem SameTree.treeInv {u t : State} (h : SameTree u t) (hu : TreeInv u) : TreeInv t := by
  rw [h.1]
  exact hu

theorem SameTree.walkInv {u t : State} (h : SameTree u t) (hu : WalkInv u) : WalkInv t := by
  rw [h.1]
  exact hu

theorem reset_flagInv : FlagInv State.reset := by decide

theorem TreeEffect.flagInv {s u : State} (h : TreeEffect s u) (hs : FlagInv s) : FlagInv u := by
  obtain ⟨hoff, hon, hroot, hmid, hle⟩ := id hs
  cases h with
  | keeps => exact hs
  | endsWalk =>
    refine ⟨fun htv => ?_, hon, fun _ => rfl, fun hm => by simp at hm, hle⟩
    obtain ⟨hn, hr, -, -, hcv⟩ := hoff htv
    exact ⟨hn, hr, rfl, rfl, hcv⟩
  | walks bit ht hn hg =>
    refine ⟨fun htv => by simp [ht] at htv, hon, fun hm => by simp at hm, fun _ => ⟨ht, ?_⟩, hle⟩
    have hne := nleaf_toNat_ne_one hn
    obtain ⟨hpos, -⟩ := hon ht
    simp only [walkTo_nleaf]
    omega
  | derives ht => exact ⟨fun htv => by simp [ht] at htv, hon, hroot, hmid, hle⟩
  | builds hp =>
    refine ⟨fun htv => by simp [builtState] at htv, fun _ => ?_, fun _ => rfl,
      fun hm => by simp [builtState] at hm, hle⟩
    rw [builtState_nleaf s, builtState_root s]
    exact ⟨List.length_pos_iff.2 hp, present_length_le s, rfl⟩
  | clears =>
    exact ⟨fun _ => ⟨rfl, rfl, rfl, rfl, rfl⟩, fun htv => by simp at htv, fun _ => rfl, fun hm => by simp at hm, hle⟩
  | resets => exact reset_flagInv

theorem TreeEffect.treeInv {s u : State} (h : TreeEffect s u) (hs : TreeInv s) : TreeInv u := by
  cases h with
  | keeps => exact hs
  | endsWalk => exact hs
  | walks bit ht hn hg => exact hs
  | derives ht => exact hs
  | builds hp => exact builtState_treeInv hp
  | clears => exact fun htv => by simp at htv
  | resets => exact fun htv => by simp [State.reset] at htv

theorem TreeEffect.walkInv {s u : State} (h : TreeEffect s u) (hs : TreeWalkInv s) : WalkInv u := by
  obtain ⟨-, -, hwalk⟩ := id hs
  cases h with
  | keeps => exact hwalk
  | endsWalk => exact fun hm => by simp at hm
  | walks bit ht hn hg => exact fun _ => ⟨nleaf_le_of_internal hs ht hg, nextNode_lt_root hs ht bit hn⟩
  | derives ht => exact hwalk
  | builds hp => exact fun hm => by simp [builtState] at hm
  | clears => exact fun hm => by simp at hm
  | resets => exact fun hm => by simp [State.reset] at hm

theorem TreeEffect.treeWalkInv {s u : State} (h : TreeEffect s u) (hs : TreeWalkInv s) : TreeWalkInv u := by
  obtain ⟨hflag, htree, -⟩ := id hs
  exact ⟨h.flagInv hflag, h.treeInv htree, h.walkInv hs⟩

theorem SameTree.treeWalkInv {u t : State} (h : SameTree u t) (hu : TreeWalkInv u) : TreeWalkInv t := by
  obtain ⟨hflag, htree, hwalk⟩ := hu
  exact ⟨h.flagInv hflag, h.treeInv htree, h.walkInv hwalk⟩

theorem reset_treeWalkInv : TreeWalkInv State.reset := ⟨reset_flagInv, by decide, by decide⟩

@[simp] theorem codeUnlisted_valid : codeUnlisted.valid = false := rfl

theorem codeUnlisted_entryForm : EntryForm codeUnlisted := ⟨fun _ => rfl, fun hv => by simp at hv⟩

theorem codeInv_of_empty {s : State} (hcode : s.code = []) (hcv : s.cv = false) : CodeInv s := by
  have hentry : ∀ b : Sym, s.entry b = codeUnlisted := fun b => by rw [entry_def, codeAt_def, hcode, cellRead_nil]
  refine ⟨fun b => ?_, fun _ => hentry, fun h => by simp [hcv] at h⟩
  rw [hentry b]
  exact codeUnlisted_entryForm

/-- Settles O50: the registers are written in groups that keep R33. -/
theorem stepKeepsFlagInvariant : Obligations.StepKeepsFlagInvariant := by
  refine ⟨reset_flagInv, fun s t hs hstep => ?_⟩
  obtain ⟨u, hu, hut⟩ := step_treeEffect hstep
  exact hut.flagInv (hu.flagInv hs)

/-- Settles O51: BUILD makes the tree, and a DBIT moves the walk from an internal node to a smaller one. -/
theorem stepKeepsTree : Obligations.StepKeepsTree := by
  refine ⟨reset_treeWalkInv, fun s t hs hstep => ?_⟩
  obtain ⟨u, hu, hut⟩ := step_treeEffect hstep
  exact hut.treeWalkInv (hu.treeWalkInv hs)

/-- Settles O47: every register has its reset value, and an arena cannot be read without a tree. -/
theorem resetStateIsEmpty : Obligations.ResetStateIsEmpty :=
  ⟨fun _ => rfl, fun _ => rfl, rfl, rfl, rfl, rfl, rfl, rfl, rfl, by decide, rfl, rfl,
    fun _ => ⟨rfl, fun _ hi => absurd hi (Nat.not_lt_zero _)⟩⟩

/-- Settles O48: no array entry is listed, no tree, walk or table is in use, and no EO bit waits. -/
theorem resetMeetsInvariants : Obligations.ResetMeetsInvariants :=
  ⟨⟨canonical_nil _ _, canonical_nil _ _, Nat.zero_le _⟩, reset_treeWalkInv, codeInv_of_empty rfl rfl,
    fun h => absurd rfl h⟩

end Sys2Proof.Proofs
end

section
/-! The traversal of DERIVE: every entry it writes is the path of a leaf, every leaf gets one (42_code_table.md R130 to
R132); from it that every step keeps the table the table of the tree, O52 (10_state.md R25, R32). -/

namespace Sys2Proof.Proofs

open Sys2Proof.Machine Sys2Proof.Safety Sys2Proof.Laws

/-! ### Digits and entries -/

/-- Digit `k` of `bits` is digit `k` of the path, 0 beyond it (20_memory.md R62). -/
def Spells (bits : Digits) (path : List Bool) : Prop := ∀ k < 256, bits.getLsbD k = path.getD k false

/-- A valid entry whose code is the path. -/
structure Records (e : CodeEntry) (path : List Bool) : Prop where
  valid : e.valid = true
  len : e.len.toNat = path.length
  bits : Spells e.bits path

theorem spells_nil : Spells 0 [] := by simp [Spells]

/-- A further digit stands at the end of the path and nowhere else. -/
theorem getD_snoc (path : List Bool) (d : Bool) (k : Nat) :
    (path ++ [d]).getD k false = (path.getD k false || (decide (k = path.length) && d)) := by
  obtain hlt | rfl | hgt := lt_trichotomy k path.length
  · rw [List.getD_append _ _ _ _ hlt]
    simp [hlt.ne]
  · simp
  · rw [List.getD_eq_default _ _ hgt.le, List.getD_eq_default _ _ (by simpa using hgt)]
    simp [hgt.ne']

theorem Spells.snoc_false {bits : Digits} {path : List Bool} (h : Spells bits path) :
    Spells bits (path ++ [false]) := by
  intro k hk
  rw [getD_snoc, h k hk]
  simp

theorem Spells.snoc_true {bits : Digits} {path : List Bool} (h : Spells bits path) :
    Spells (bits ||| ((1 : Digits) <<< path.length)) (path ++ [true]) := by
  intro k hk
  have hbit : ((1 : Digits) <<< path.length).getLsbD k = decide (k = path.length) := by
    change (BitVec.twoPow 256 path.length).getLsbD k = _
    rw [BitVec.getLsbD_twoPow, ← Bool.decide_and]
    exact decide_eq_decide.2 (by omega)
  rw [getD_snoc, BitVec.getLsbD_or, h k hk, hbit, Bool.and_true]

theorem Records.codeDigits_eq {e : CodeEntry} {path : List Bool} (h : Records e path) : codeDigits e = path := by
  refine List.ext_getElem (by simp [codeDigits, h.len]) fun k hk hk' => ?_
  have hlt := e.len.isLt
  have hlen := h.len
  simp [codeDigits, h.bits k (by omega), hk']

theorem Records.entryForm {e : CodeEntry} {path : List Bool} (h : Records e path) (hne : path ≠ []) : EntryForm e := by
  have hpos := List.length_pos_iff.2 hne
  refine ⟨fun hv => by simp [h.valid] at hv, fun _ => ⟨by rw [h.len]; exact hpos, fun k hk hlen => ?_⟩⟩
  rw [h.bits k hk, List.getD_eq_default _ _ (h.len ▸ hlen)]

/-! ### Paths from the root -/

theorem follow_congr {s t : State} (h : t.node = s.node) (i : Nat) (path : List Bool) :
    follow t i path = follow s i path := by
  induction path generalizing i with
  | nil => rfl
  | cons d path ih =>
    rw [follow, follow, nodeAt_def, nodeAt_def, h, ih]

theorem follow_snoc {s : State} {i j : Nat} {path : List Bool} (h : follow s i path = some j)
    (hg : (s.nodeAt j).tag = .internal) (d : Bool) :
    follow s i (path ++ [d]) = some (childOf (s.nodeAt j) d).toNat := by
  induction path generalizing i with
  | nil =>
    obtain rfl : i = j := by simpa [follow] using h
    simp [follow, hg]
  | cons e path ih =>
    rw [follow] at h
    split at h
    · next hi => simpa only [List.cons_append, follow, hi, if_true] using ih h
    · cases h

section
variable {s : State} (h : TreeWalkInv s) (ht : s.tv = true)
include h ht

/-- A path goes down (R30 (c)), and through internal nodes only. -/
theorem follow_bounds {i j : Nat} {path : List Bool} (hi : i < s.nnodes) (hf : follow s i path = some j) :
    path.length + j ≤ i ∧ path.length + s.nleaf.toNat ≤ max s.nleaf.toNat (i + 1) := by
  induction path generalizing i with
  | nil =>
    obtain rfl : i = j := by simpa [follow] using hf
    simp
  | cons d path ih =>
    rw [follow] at hf
    split at hf
    · next hg =>
      have hchild := child_lt h ht hi hg d
      have hle := nleaf_le_of_internal h ht hg
      obtain ⟨hdown, hlen⟩ := ih (hchild.trans hi) hf
      rw [List.length_cons]
      omega
    · cases hf

theorem follow_root_bounds {j : Nat} {path : List Bool} (hf : follow s s.root.toNat path = some j) :
    j < s.nnodes ∧ path.length ≤ 255 := by
  have hnn := nnodes_eq_root_succ h ht
  obtain ⟨h1, h256, hroot⟩ := nleaf_bounds h ht
  obtain ⟨hdown, hlen⟩ := follow_bounds h ht (by omega) hf
  omega

/-- Every node has a path: up to its parent, as long as it is not the root. -/
theorem exists_follow_root {j : Nat} (hj : j ≤ s.root.toNat) : ∃ path, follow s s.root.toNat path = some j := by
  induction hk : s.root.toNat - j using Nat.strong_induction_on generalizing j with
  | _ k ih =>
    obtain hlt | rfl := lt_or_eq_of_le hj
    · obtain ⟨i, d, hi, hg, rfl⟩ := exists_parent h ht hlt
      have hnn := nnodes_eq_root_succ h ht
      have hchild := child_lt h ht hi hg d
      obtain ⟨path, hpath⟩ := ih (s.root.toNat - i) (by omega) (by omega) rfl
      exact ⟨path ++ [d], follow_snoc hpath hg d⟩
    · exact ⟨[], rfl⟩

end

/-! ### The traversal -/

/-- The entry is the path from the root to a leaf of the symbol. -/
def RecordsLeaf (s : State) (b : Sym) (e : CodeEntry) : Prop :=
  ∃ path j, follow s s.root.toNat path = some j ∧ (s.nodeAt j).tag = .leaf ∧ (s.nodeAt j).sym = b ∧ Records e path

theorem visit_leaf {s : State} {i : Nat} (hg : (s.nodeAt i).tag = .leaf) (depth len : Nat) (bits : Digits)
    (code : Cells CodeEntry) : visit s.node (depth + 1) i len bits code = setCode code (s.nodeAt i).sym len bits := by
  rw [nodeAt_def] at hg ⊢
  simp only [visit, hg]

/-- Below an internal node the path goes on with 0 to the left, then with 1 to the right (R130). -/
theorem visit_internal {s : State} {i : Nat} (hg : (s.nodeAt i).tag = .internal) (depth : Nat) (path : List Bool)
    (bits : Digits) (code : Cells CodeEntry) :
    visit s.node (depth + 1) i path.length bits code =
      visit s.node depth (childOf (s.nodeAt i) true).toNat (path ++ [true]).length
        (bits ||| ((1 : Digits) <<< path.length))
        (visit s.node depth (childOf (s.nodeAt i) false).toNat (path ++ [false]).length bits code) := by
  rw [nodeAt_def] at hg ⊢
  simp only [visit, hg, List.length_append, List.length_singleton, childOf, if_true, Bool.false_eq_true, if_false]

section
variable {s : State} (h : TreeWalkInv s) (ht : s.tv = true)
include h ht

/-- A visit leaves an entry alone or writes a leaf's path into it. -/
theorem visit_entry (depth : Nat) {i : Nat} {path : List Bool} {bits : Digits} (code : Cells CodeEntry)
    (hi : follow s s.root.toNat path = some i) (hb : Spells bits path) (b : Sym) :
    cellRead codeUnlisted (visit s.node depth i path.length bits code) b.toNat = cellRead codeUnlisted code b.toNat ∨
    RecordsLeaf s b (cellRead codeUnlisted (visit s.node depth i path.length bits code) b.toNat) := by
  induction depth generalizing i path bits code with
  | zero => exact .inl rfl
  | succ depth ih =>
    cases hg : (s.nodeAt i).tag with
    | leaf =>
      rw [visit_leaf hg, cellRead_setCode]
      split
      · next hsym =>
        obtain ⟨-, hlen⟩ := follow_root_bounds h ht hi
        exact .inr ⟨path, i, hi, hg, (BitVec.eq_of_toNat_eq hsym).symm, rfl, toNat_ofNat_of_lt (by omega), hb⟩
      · exact .inl rfl
    | internal =>
      rw [visit_internal hg]
      obtain heq | hrec := ih (visit s.node depth (childOf (s.nodeAt i) false).toNat (path ++ [false]).length bits code)
        (follow_snoc hi hg true) hb.snoc_true
      · rw [heq]
        exact ih code (follow_snoc hi hg false) hb.snoc_false
      · exact .inr hrec

/-- A visit makes no entry invalid. -/
theorem visit_keeps_valid (depth : Nat) {i : Nat} {path : List Bool} {bits : Digits} {code : Cells CodeEntry}
    (hi : follow s s.root.toNat path = some i) (hb : Spells bits path) {b : Sym}
    (hv : (cellRead codeUnlisted code b.toNat).valid = true) :
    (cellRead codeUnlisted (visit s.node depth i path.length bits code) b.toNat).valid = true := by
  obtain heq | ⟨_, _, -, -, -, hrec⟩ := visit_entry h ht depth code hi hb b
  · rw [heq]
    exact hv
  · exact hrec.valid

/-- Every leaf below the node visited gets an entry, as long as the depth allowed is not spent. -/
theorem visit_covers (depth : Nat) {i j : Nat} {path below : List Bool} {bits : Digits} (code : Cells CodeEntry)
    (hi : follow s s.root.toNat path = some i) (hb : Spells bits path) (hd : i < depth)
    (hj : follow s i below = some j) (hg : (s.nodeAt j).tag = .leaf) :
    (cellRead codeUnlisted (visit s.node depth i path.length bits code) (s.nodeAt j).sym.toNat).valid = true := by
  induction depth generalizing i path below bits code with
  | zero => omega
  | succ depth ih =>
    cases below with
    | nil =>
      obtain rfl : i = j := by simpa [follow] using hj
      rw [visit_leaf hg, cellRead_setCode, if_pos rfl]
    | cons d below =>
      rw [follow] at hj
      split at hj
      · next hgi =>
        obtain ⟨hlt, -⟩ := follow_root_bounds h ht hi
        have hchild := child_lt h ht hlt hgi d
        rw [visit_internal hgi]
        cases d with
        | false =>
          exact visit_keeps_valid h ht depth (follow_snoc hi hgi true) hb.snoc_true
            (ih code (follow_snoc hi hgi false) hb.snoc_false (by omega) hj)
        | true => exact ih _ (follow_snoc hi hgi true) hb.snoc_true (by omega) hj
      · cases hj

end

/-! ### The table of the tree -/

/-- The one entry of the degenerate tree's table, the code "0" (R132). -/
theorem derivedCode_degenerate {s : State} (hn : s.nleaf = 1) (b : Sym) :
    cellRead codeUnlisted s.derivedCode b.toNat =
      if b = (s.nodeAt 0).sym then { valid := true, len := 1, bits := 0 } else codeUnlisted := by
  rw [State.derivedCode, if_pos hn, cellRead_setCode, cellRead_nil]
  simp only [BitVec.toNat_inj]
  rfl

theorem records_degenerate : Records { valid := true, len := 1, bits := 0 } [false] := ⟨rfl, rfl, spells_nil.snoc_false⟩

section
variable {s : State} (h : TreeWalkInv s) (ht : s.tv = true) (hn : s.nleaf ≠ 1)
include h ht hn

/-- The table of a tree with two leaves or more: an entry is invalid or a leaf's path (R131). -/
theorem derivedCode_entry (b : Sym) :
    cellRead codeUnlisted s.derivedCode b.toNat = codeUnlisted ∨
    RecordsLeaf s b (cellRead codeUnlisted s.derivedCode b.toNat) := by
  rw [State.derivedCode, if_neg hn]
  exact visit_entry h ht _ [] (path := []) rfl spells_nil b

theorem derivedCode_covers {j : Nat} (hj : j < s.nleaf.toNat) :
    (cellRead codeUnlisted s.derivedCode (s.nodeAt j).sym.toNat).valid = true := by
  obtain ⟨h1, h256, hroot⟩ := nleaf_bounds h ht
  obtain ⟨path, hpath⟩ := exists_follow_root h ht (j := j) (by omega)
  obtain ⟨hg, -⟩ := leafEntry_of_lt h ht hj
  rw [State.derivedCode, if_neg hn]
  exact visit_covers h ht _ [] (path := []) rfl spells_nil (by simp only [Config.nodeMax]; omega) hpath hg

/-- A leaf's path is not empty: the root is an internal node. -/
theorem path_ne_nil {j : Nat} {path : List Bool} (hf : follow s s.root.toNat path = some j)
    (hg : (s.nodeAt j).tag = .leaf) : path ≠ [] := by
  rintro rfl
  obtain rfl : s.root.toNat = j := by simpa [follow] using hf
  obtain ⟨h1, -, hroot⟩ := nleaf_bounds h ht
  have hne := nleaf_toNat_ne_one hn
  have hlt := lt_nleaf_of_leaf h ht (by rw [nnodes_eq_root_succ h ht]; omega) hg
  omega

end

/-- What `CodeInv` says of the entry of byte `b` while `CV = 1`. -/
def EntryOfTree (s : State) (b : Sym) (e : CodeEntry) : Prop :=
  EntryForm e ∧ (e.valid = true ↔ ∃ i < s.nleaf.toNat, (s.nodeAt i).sym = b) ∧
  (e.valid = true → IsCodeOf s b (codeDigits e))

theorem derivedCode_entryOfTree_degenerate {s : State} (hn : s.nleaf = 1) (b : Sym) :
    EntryOfTree s b (cellRead codeUnlisted s.derivedCode b.toNat) := by
  have hn' : s.nleaf.toNat = 1 := by rw [hn]; rfl
  rw [derivedCode_degenerate hn]
  split
  · next hb =>
    have hleaf : ∃ i < s.nleaf.toNat, (s.nodeAt i).sym = b := ⟨0, by omega, hb.symm⟩
    refine ⟨records_degenerate.entryForm (by simp), ⟨fun _ => hleaf, fun _ => rfl⟩,
      fun _ => ⟨0, by omega, hb.symm, ?_⟩⟩
    rw [if_pos hn', records_degenerate.codeDigits_eq]
  · next hb =>
    refine ⟨codeUnlisted_entryForm, ⟨fun hv => by simp at hv, ?_⟩, fun hv => by simp at hv⟩
    rintro ⟨i, hi, hsym⟩
    obtain rfl : i = 0 := by omega
    exact absurd hsym.symm hb

theorem derivedCode_entryOfTree {s : State} (h : TreeWalkInv s) (ht : s.tv = true) (b : Sym) :
    EntryOfTree s b (cellRead codeUnlisted s.derivedCode b.toNat) := by
  by_cases hn : s.nleaf = 1
  · exact derivedCode_entryOfTree_degenerate hn b
  have hcovers : (∃ i < s.nleaf.toNat, (s.nodeAt i).sym = b) →
      (cellRead codeUnlisted s.derivedCode b.toNat).valid = true := by
    rintro ⟨i, hi, rfl⟩
    exact derivedCode_covers h ht hn hi
  obtain heq | ⟨path, j, hf, hg, hsym, hrec⟩ := derivedCode_entry h ht hn b
  · rw [heq] at hcovers ⊢
    exact ⟨codeUnlisted_entryForm, ⟨fun hv => by simp at hv, hcovers⟩, fun hv => by simp at hv⟩
  · obtain ⟨hlt, -⟩ := follow_root_bounds h ht hf
    have hj := lt_nleaf_of_leaf h ht hlt hg
    refine ⟨hrec.entryForm (path_ne_nil h ht hn hf hg), ⟨fun _ => ⟨j, hj, hsym⟩, hcovers⟩,
      fun _ => ⟨j, hj, hsym, ?_⟩⟩
    rw [if_neg (nleaf_toNat_ne_one hn), hrec.codeDigits_eq]
    exact hf

/-! ### What every step keeps of the table -/

theorem isCodeOf_congr {s t : State} (hnleaf : t.nleaf = s.nleaf) (hroot : t.root = s.root) (hnode : t.node = s.node)
    (b : Sym) (digits : List Bool) : IsCodeOf t b digits ↔ IsCodeOf s b digits := by
  simp only [IsCodeOf, nodeAt_def, hnleaf, hroot, hnode, follow_congr hnode]

/-- The table invariant reads the table and the tree only. -/
theorem codeInv_congr {s t : State} (hcode : t.code = s.code) (hcv : t.cv = s.cv) (hnleaf : t.nleaf = s.nleaf)
    (hroot : t.root = s.root) (hnode : t.node = s.node) (h : CodeInv s) : CodeInv t := by
  have hentry : ∀ b, t.entry b = s.entry b := fun b => by rw [entry_def, entry_def, codeAt_def, codeAt_def, hcode]
  simpa only [CodeInv, isCodeOf_congr hnleaf hroot hnode, hentry, hcv, hnleaf, nodeAt_def, hnode] using h

theorem SameTree.codeInv {u t : State} (h : SameTree u t) (hu : CodeInv u) : CodeInv t := by
  rw [h.1]
  exact codeInv_congr (s := u) rfl rfl rfl rfl rfl hu

theorem derive_codeInv {s : State} (h : TreeWalkInv s) (ht : s.tv = true) :
    CodeInv { s with code := s.derivedCode, cv := true } := by
  refine ⟨fun b => (derivedCode_entryOfTree h ht b).1, fun hcv => by simp at hcv, fun _ b => ?_⟩
  obtain ⟨-, hvalid, hcode⟩ := derivedCode_entryOfTree h ht b
  exact ⟨hvalid, fun hv =>
    (isCodeOf_congr (s := s) (t := { s with code := s.derivedCode, cv := true }) rfl rfl rfl b _).2 (hcode hv)⟩

theorem TreeEffect.codeInv {s u : State} (h : TreeEffect s u) (hs : TreeWalkInv s) (hc : CodeInv s) : CodeInv u := by
  cases h with
  | keeps => exact hc
  | endsWalk => exact codeInv_congr (s := s) rfl rfl rfl rfl rfl hc
  | walks bit ht hn hg => exact codeInv_congr (s := s) rfl rfl rfl rfl rfl hc
  | derives ht => exact derive_codeInv hs ht
  | builds hp => exact codeInv_of_empty rfl rfl
  | clears => exact codeInv_of_empty rfl rfl
  | resets => exact codeInv_of_empty rfl rfl

/-- Settles O52: DERIVE writes the table of the tree, and what changes the tree empties the table. -/
theorem stepKeepsCodeTable : Obligations.StepKeepsCodeTable := by
  intro s t hs hc hstep
  obtain ⟨u, hu, hut⟩ := step_treeEffect hstep
  exact hut.codeInv (hu.codeInv hs hc)

end Sys2Proof.Proofs
end

section
/-! The entries of NODE outside the tree in use are read by no command: O54 (10_state.md R24, R37). -/

namespace Sys2Proof.Proofs

open Sys2Proof.Machine Sys2Proof.Safety Sys2Proof.Laws

/-! ### Answers that differ in unreadable entries only -/

/-- Where `o` answers, `o'` answers with a state that differs only in unreadable entries. -/
def AnswersAlike (o o' : Host.Outcome State Fault Refusal) : Prop :=
  ∀ t, o = .next t → ∃ t', o' = .next t' ∧ SameObservable t t'

theorem alike_respond {u u' : State} {p p' : Payload} (h : SameObservable u u') (hp : p' = p) :
    AnswersAlike (respond p u) (respond p' u') := by
  subst hp
  rintro t ⟨⟩
  obtain ⟨heq, hnodes⟩ := h
  exact ⟨_, rfl, congrArg (fun x : State => x.answer .ok p') heq, hnodes⟩

theorem alike_raise (st : Status) {u u' : State} (h : SameObservable u u') :
    AnswersAlike (raise st u) (raise st u') := by
  rintro t ⟨⟩
  obtain ⟨heq, hnodes⟩ := h
  exact ⟨_, rfl, congrArg (fun x : State => ({ x with lastErr := st.code } : State).answer st 0) heq, hnodes⟩

/-- The same condition on both sides. -/
theorem alike_ite {c : Prop} [Decidable c] {a b a' b' : Host.Outcome State Fault Refusal} (ha : c → AnswersAlike a a')
    (hb : ¬ c → AnswersAlike b b') : AnswersAlike (if c then a else b) (if c then a' else b') := by
  split
  · next hc => exact ha hc
  · next hc => exact hb hc

theorem exists_nodes_of_sameObservable {s s' : State} (h : SameObservable s s') :
    ∃ nodes, s' = { s with node := nodes } ∧ ∀ i < s.nnodes, nodeIn nodes i = s.nodeAt i :=
  ⟨s'.node, h.1, h.2⟩

/-! ### The commands that read NODE -/

section
variable {s : State} (h : TreeWalkInv s) (ht : s.tv = true) {nodes : List Node}
  (hsame : ∀ i < s.nnodes, nodeIn nodes i = s.nodeAt i)
include h ht hsame

/-- A visit reads the node it is at and nodes below it. -/
theorem visit_congr (depth : Nat) {i : Nat} (hi : i < s.nnodes) (len : Nat) (bits : Digits) (code : Cells CodeEntry) :
    visit nodes depth i len bits code = visit s.node depth i len bits code := by
  induction depth generalizing i len bits code with
  | zero => rfl
  | succ depth ih =>
    have hnode : nodeIn nodes i = s.nodeAt i := hsame i hi
    cases hg : (s.nodeAt i).tag with
    | leaf => simp only [visit, hnode, ← nodeAt_def, hg]
    | internal =>
      have hl : (s.nodeAt i).l.toNat < i := child_lt h ht hi hg false
      have hr : (s.nodeAt i).r.toNat < i := child_lt h ht hi hg true
      simp only [visit, hnode, ← nodeAt_def, hg]
      rw [ih (hr.trans hi), ih (hl.trans hi)]

theorem derivedCode_congr : ({ s with node := nodes } : State).derivedCode = s.derivedCode := by
  have hnn := nnodes_eq_root_succ h ht
  have h0 : nodeIn nodes 0 = s.nodeAt 0 := hsame 0 (by omega)
  have hvisit := visit_congr h ht hsame Config.nodeMax (i := s.root.toNat) (by omega) 0 0 []
  simp only [State.derivedCode, nodeAt_def] at h0 ⊢
  rw [h0, hvisit]

theorem nextNode_congr (hn : s.nleaf ≠ 1) (bit : Bool) :
    nextNode bit ({ s with node := nodes } : State) = nextNode bit s := by
  obtain ⟨hlt, -⟩ := here_internal h ht hn
  exact congrArg (fun n => childOf n bit) (hsame _ hlt)

end

theorem builtState_sameObservable {s : State} (hp : s.present ≠ []) (nodes : List Node) :
    SameObservable (builtState s) (builtState { s with node := nodes }) := by
  refine ⟨rfl, fun i hi => ?_⟩
  rw [builtState_nnodes hp] at hi
  rw [builtState_nodeAt hi]
  exact nodeAt_setNodes hi

theorem execRdnl_some {s : State} {idx : NodeIx} {st : Status} (h : s.nodeReadFailure idx = some st) :
    exec (.rdnl idx) s = raise st s := by
  simp only [exec, execRdnl, h]

theorem execRdnl_none {s : State} {idx : NodeIx} (h : s.nodeReadFailure idx = none) :
    exec (.rdnl idx) s = respond (linksPayload (s.nodeAt idx.toNat)) s := by
  simp only [exec, execRdnl, h]

theorem execRdnw_some {s : State} {idx : NodeIx} {st : Status} (h : s.nodeReadFailure idx = some st) :
    exec (.rdnw idx) s = raise st s := by
  simp only [exec, execRdnw, h]

theorem execRdnw_none {s : State} {idx : NodeIx} (h : s.nodeReadFailure idx = none) :
    exec (.rdnw idx) s = respond (s.nodeAt idx.toNat).w s := by
  simp only [exec, execRdnw, h]

theorem lt_nnodes_of_readable {s : State} {idx : NodeIx} (h : s.nodeReadFailure idx = none) : idx.toNat < s.nnodes := by
  obtain ⟨-, hf⟩ | ⟨-, -, hf⟩ | ⟨-, hlt, -⟩ := nodeReadFailure_cases idx s
  · simp [hf] at h
  · simp [hf] at h
  · exact hlt

/-- `execDbit_cases` for the walk, one equation for each tag of the node moved to. -/
theorem execDbit_leaf {s : State} {bit : Bool} (ht : s.tv = true) (hn : s.nleaf ≠ 1)
    (hg : (s.nodeAt (nextNode bit s).toNat).tag = .leaf) :
    exec (.dbit bit) s = respond (emitPayload (s.nodeAt (nextNode bit s).toNat).sym) s.walkToRoot := by
  simpa only [ht, hn, hg, reduceCtorEq, ne_eq, not_false_eq_true, true_and, false_and, false_or, or_false]
    using execDbit_cases bit s

theorem execDbit_internal {s : State} {bit : Bool} (ht : s.tv = true) (hn : s.nleaf ≠ 1)
    (hg : (s.nodeAt (nextNode bit s).toNat).tag = .internal) :
    exec (.dbit bit) s = respond 0 (s.walkTo (nextNode bit s)) := by
  simpa only [ht, hn, hg, reduceCtorEq, ne_eq, not_false_eq_true, true_and, false_and, false_or, or_false]
    using execDbit_cases bit s

/-- A step of the walk reads the node it is at and that node's child. -/
theorem execDbit_alike {s : State} (h : TreeWalkInv s) (ht : s.tv = true) (hn : s.nleaf ≠ 1) {nodes : List Node}
    (hsame : ∀ i < s.nnodes, nodeIn nodes i = s.nodeAt i) (bit : Bool) :
    AnswersAlike (exec (.dbit bit) s) (exec (.dbit bit) { s with node := nodes }) := by
  have hnn := nnodes_eq_root_succ h ht
  have hlt := nextNode_lt_root h ht bit hn
  have hnext := nextNode_congr h ht hsame hn bit
  have hchild : ({ s with node := nodes } : State).nodeAt (nextNode bit { s with node := nodes }).toNat =
      s.nodeAt (nextNode bit s).toNat := by
    rw [hnext]
    exact hsame _ (by omega)
  cases hg : (s.nodeAt (nextNode bit s).toNat).tag with
  | leaf =>
    rw [execDbit_leaf ht hn hg, execDbit_leaf (s := { s with node := nodes }) ht hn (by rw [hchild, hg]), hchild]
    exact alike_respond ⟨rfl, hsame⟩ rfl
  | internal =>
    rw [execDbit_internal ht hn hg, execDbit_internal (s := { s with node := nodes }) ht hn (by rw [hchild, hg]), hnext]
    exact alike_respond ⟨rfl, hsame⟩ rfl

/-! ### The commands -/

theorem exec_alike {s : State} (h : TreeWalkInv s) {nodes : List Node}
    (hsame : ∀ i < s.nnodes, nodeIn nodes i = s.nodeAt i) (i : Instr) :
    AnswersAlike (exec i s) (exec i { s with node := nodes }) := by
  have hs : SameObservable s { s with node := nodes } := ⟨rfl, hsame⟩
  cases i with
  | nop => exact alike_respond hs rfl
  | clr => exact alike_respond ⟨rfl, fun i hi => absurd hi (Nat.not_lt_zero i)⟩ rfl
  | cnt sym => exact alike_ite (fun _ => alike_raise _ hs) (fun _ => alike_respond ⟨rfl, hsame⟩ rfl)
  | setf sym count => exact alike_respond ⟨rfl, hsame⟩ rfl
  | build =>
    exact alike_ite (fun _ => alike_raise _ hs) (fun hp => alike_respond (builtState_sameObservable hp nodes) rfl)
  | derive =>
    exact alike_ite (fun _ => alike_raise _ hs) (fun ht => alike_respond
      ⟨by rw [derivedCode_congr h (by simpa using ht) hsame], hsame⟩ rfl)
  | enc sym => exact alike_ite (fun _ => alike_raise _ hs) (fun _ => alike_respond ⟨rfl, hsame⟩ rfl)
  | dbit bit =>
    by_cases hwalk : s.tv = true ∧ s.nleaf ≠ 1
    · obtain ⟨ht, hn⟩ := hwalk
      exact execDbit_alike h ht hn hsame bit
    · refine alike_ite (fun _ => alike_raise _ hs) fun ht => ?_
      have ht' : s.tv = true := by simpa using ht
      have hnn := nnodes_eq_root_succ h ht'
      have h0 : nodeIn nodes 0 = s.nodeAt 0 := hsame 0 (by omega)
      exact alike_ite (fun _ => alike_respond hs (congrArg (fun n : Node => emitPayload n.sym) h0))
        (fun hn => absurd ⟨ht', hn⟩ hwalk)
  | dend =>
    exact alike_ite (fun _ => alike_raise _ hs)
      (fun _ => alike_ite (fun _ => alike_raise _ ⟨rfl, hsame⟩) (fun _ => alike_respond hs rfl))
  | rdst => exact alike_respond hs rfl
  | rdf sym => exact alike_respond hs rfl
  | rdnl idx =>
    cases hf : s.nodeReadFailure idx with
    | some st =>
      rw [execRdnl_some hf, execRdnl_some (s := { s with node := nodes }) hf]
      exact alike_raise st hs
    | none =>
      rw [execRdnl_none hf, execRdnl_none (s := { s with node := nodes }) hf]
      exact alike_respond hs (congrArg linksPayload (hsame _ (lt_nnodes_of_readable hf)))
  | rdnw idx =>
    cases hf : s.nodeReadFailure idx with
    | some st =>
      rw [execRdnw_some hf, execRdnw_some (s := { s with node := nodes }) hf]
      exact alike_raise st hs
    | none =>
      rw [execRdnw_none hf, execRdnw_none (s := { s with node := nodes }) hf]
      exact alike_respond hs (congrArg Node.w (hsame _ (lt_nnodes_of_readable hf)))
  | rdcl sym => exact alike_respond hs rfl
  | rdcb sym k => exact alike_respond hs rfl

/-- Settles O54: a command reads `NODE` only at entries of the tree in use, and BUILD writes every entry of the tree it
leaves. -/
theorem unreadableNodesDoNotMatter : Obligations.UnreadableNodesDoNotMatter := by
  intro w s s' t h hss ht
  obtain ⟨nodes, rfl, hsame⟩ := exists_nodes_of_sameObservable hss
  cases hd : decode w with
  | ok i =>
    rw [acceptWord_legal hd] at ht ⊢
    exact exec_alike h hsame i t ht
  | error e =>
    rw [acceptWord_illegal hd] at ht ⊢
    exact alike_raise .illegal hss t ht

end Sys2Proof.Proofs
end

section
/-! The memory of 20_memory.md: the read-back commands repeat their answer, O45 (R66), and every step keeps the arrays
in canonical form and within their sizes, O49 (R60). -/

namespace Sys2Proof.Proofs

open Sys2Proof.Machine Sys2Proof.Safety Sys2Proof.Laws

/-! ### The read-back commands -/

/-- `i` answers in `s`, answers the same again in the state it leaves, and a success changes only the response port. -/
def RepeatsAnswer (i : Instr) (s : State) : Prop :=
  ∃ t r, exec i s = .next t ∧ t.rspPort = some r ∧ exec i t = .next t ∧
    (statusOf r = 0 → t = { s with rspPort := some r })

theorem repeatsAnswer_of_respond {i : Instr} {s : State} {p : Payload} (h : exec i s = respond p s)
    (hagain : exec i (s.answer .ok p) = respond p (s.answer .ok p)) : RepeatsAnswer i s :=
  ⟨s.answer .ok p, rspWord .ok p, h, rfl, hagain, fun _ => rfl⟩

theorem repeatsAnswer_of_raise {i : Instr} {s : State} {st : Status} (hst : st ≠ .ok) (h : exec i s = raise st s)
    (hagain : exec i (({ s with lastErr := st.code } : State).answer st 0) =
      raise st (({ s with lastErr := st.code } : State).answer st 0)) : RepeatsAnswer i s := by
  refine ⟨({ s with lastErr := st.code } : State).answer st 0, rspWord st 0, h, rfl, hagain, fun hok => ?_⟩
  rw [statusOf_rspWord, status_code_eq_zero] at hok
  exact absurd hok hst

theorem nodeReadFailure_ne_ok {s : State} {idx : NodeIx} {st : Status} (h : s.nodeReadFailure idx = some st) :
    st ≠ .ok := by
  rintro rfl
  obtain ⟨-, hf⟩ | ⟨-, -, hf⟩ | ⟨-, -, hf⟩ := nodeReadFailure_cases idx s <;> simp [hf] at h

/-- The two commands that read a node: neither the check nor the node depends on `LASTERR` or the response port. -/
theorem repeatsAnswer_of_nodeRead {i : Instr} {idx : NodeIx} (field : Node → Payload)
    (hfails : ∀ {u : State} {st : Status}, u.nodeReadFailure idx = some st → exec i u = raise st u)
    (hreads : ∀ {u : State}, u.nodeReadFailure idx = none → exec i u = respond (field (u.nodeAt idx.toNat)) u)
    (s : State) : RepeatsAnswer i s := by
  cases hf : s.nodeReadFailure idx with
  | some st => exact repeatsAnswer_of_raise (nodeReadFailure_ne_ok hf) (hfails hf) (hfails hf)
  | none => exact repeatsAnswer_of_respond (hreads hf) (hreads hf)

/-- Settles O45: what a read answers depends on neither `LASTERR` nor the response port, except for RDST, which reads
`LASTERR` and never fails. -/
theorem readsHaveNoSideEffect : Obligations.ReadsHaveNoSideEffect := by
  intro i s hi
  change RepeatsAnswer i s
  cases i with
  | rdst => exact repeatsAnswer_of_respond (execRdst_eq s) (execRdst_eq _)
  | rdf sym => exact repeatsAnswer_of_respond (execRdf_eq sym s) (execRdf_eq sym _)
  | rdcl sym => exact repeatsAnswer_of_respond (execRdcl_eq sym s) (execRdcl_eq sym _)
  | rdcb sym k => exact repeatsAnswer_of_respond (execRdcb_eq sym k s) (execRdcb_eq sym k _)
  | rdnl idx => exact repeatsAnswer_of_nodeRead linksPayload execRdnl_some execRdnl_none s
  | rdnw idx => exact repeatsAnswer_of_nodeRead Node.w execRdnw_some execRdnw_none s
  | nop | clr | cnt | setf | build | derive | enc | dbit | dend => simp [isRead] at hi

/-! ### The form and the sizes of the arrays -/

theorem canonical_setFreq {s : State} (h : Canonical freqUnlisted Config.nsym s.freq) (sym : Sym) (c : Count) :
    Canonical freqUnlisted Config.nsym (s.setFreq sym.toNat c).freq := canonical_write h _ _ sym.isLt

theorem canonical_setCode {code : Cells CodeEntry} (h : Canonical codeUnlisted Config.nsym code) (sym : Sym) (len : Nat)
    (bits : Digits) : Canonical codeUnlisted Config.nsym (setCode code sym len bits) := canonical_write h _ _ sym.isLt

/-- The table of `DERIVE` starts from the empty one, degenerate tree or not (42_code_table.md R131, R132). -/
theorem canonical_derivedCode (s : State) : Canonical codeUnlisted Config.nsym s.derivedCode := by
  unfold State.derivedCode
  split
  · exact canonical_setCode (canonical_nil _ _) _ _ _
  · exact canonical_visit _ _ _ _ _ _ (canonical_nil _ _)

/-- At most 256 leaves make at most 511 entries; the entries above are the ones that were there. -/
theorem builtState_node_length_le {s : State} (hp : s.present ≠ []) (h : s.node.length ≤ Config.nodeMax) :
    (builtState s).node.length ≤ Config.nodeMax := by
  have hlen := buildArena_leaves_length hp
  have hle := present_length_le s
  have hnode : (builtState s).node = buildArena s.leaves ++ s.node.drop (buildArena s.leaves).length := rfl
  rw [hnode, List.length_append, List.length_drop]
  simp only [Config.nodeMax] at h ⊢
  omega

theorem Effect.memory_wf {i : Instr} {s t : State} (h : Effect i s t) (hs : Memory.wf s) : Memory.wf t := by
  obtain ⟨hfreq, hcode, hnode⟩ := id hs
  cases h with
  | fails st hst => exact hs
  | truncates ht => exact hs
  | keeps p hc => exact hs
  | counts sym => exact ⟨canonical_setFreq hfreq sym _, hcode, hnode⟩
  | sets sym count => exact ⟨canonical_setFreq hfreq sym count, hcode, hnode⟩
  | emits sym => exact hs
  | builds hp => exact ⟨canonical_nil _ _, canonical_nil _ _, builtState_node_length_le hp hnode⟩
  | derives ht => exact ⟨hfreq, canonical_derivedCode s, hnode⟩
  | reachesLeaf bit p => exact hs
  | reachesInternal bit ht hn hg => exact hs
  | clears => exact ⟨canonical_nil _ _, canonical_nil _ _, hnode⟩

theorem reset_memory_wf : Memory.wf State.reset := resetMeetsInvariants.1

/-- Settles O49: a transfer out of the block writes no array, an accepted word what its command writes, and reset leaves
empty lists. -/
theorem stepKeepsMemoryCanonical : Obligations.StepKeepsMemoryCanonical := by
  intro s t hs hstep
  cases h : s.hostIn with
  | nil =>
    cases (step_idle h).symm.trans hstep
    exact hs
  | cons act rest =>
    cases act with
    | offerCmd w =>
      rw [step_offer h] at hstep
      split at hstep
      · obtain ⟨i, hi⟩ := acceptWord_effect hstep
        exact hi.memory_wf hs
      · cases hstep
        exact hs
    | takeEo => obtain ⟨-, hnext⟩ | ⟨b, bits, -, hnext⟩ := step_takeEo h <;> cases hnext.symm.trans hstep <;> exact hs
    | takeRsp => obtain ⟨-, hnext⟩ | ⟨r, -, -, hnext⟩ := step_takeRsp h <;> cases hnext.symm.trans hstep <;> exact hs
    | reset =>
      cases (step_reset h).symm.trans hstep
      exact reset_memory_wf

end Sys2Proof.Proofs
end

section
/-! The encoding of 30_encoding.md: the decoder and the encoder are inverse, O1 and O2 (R80 to R88), and agree with the
opcode map, O3 and O4 (R84, R86); words as numbers, O5 and O40 (R80, R82); the assembler, O7 (R89); the command
port, O55 and O56 (R91). -/

namespace Sys2Proof.Proofs

open Sys2Proof.Machine Sys2Proof.Safety Sys2Proof.Laws

/-! ### Low parts of a field -/

theorem extractLsb'_setWidth_self {k w : Nat} (hk : k ≤ w) (x : BitVec k) : (x.setWidth w).extractLsb' 0 k = x := by
  rw [BitVec.extractLsb'_setWidth_of_le (by omega), BitVec.extractLsb'_eq_self]

theorem extractLsb'_setWidth_high {k w : Nat} (r : Nat) (x : BitVec k) : (x.setWidth w).extractLsb' k r = 0 := by
  ext j hj
  simp [BitVec.getLsbD_setWidth]

/-- A field whose bits from `k` up are 0 is its low `k` bits, zero-extended (30_encoding.md R81). -/
theorem setWidth_extractLsb'_of_lt {k w : Nat} {x : BitVec w} (h : x.toNat < 2 ^ k) :
    (x.extractLsb' 0 k).setWidth w = x := by
  apply BitVec.eq_of_toNat_eq
  simp [BitVec.extractLsb'_toNat, Nat.mod_eq_of_lt h, Nat.mod_eq_of_lt x.isLt]

theorem lt_of_extractLsb'_eq_zero {k r w : Nat} {x : BitVec w} (hw : k + r = w) (h : x.extractLsb' k r = 0) :
    x.toNat < 2 ^ k := by
  have hlt : x.toNat / 2 ^ k < 2 ^ r := by
    rw [Nat.div_lt_iff_lt_mul (by positivity), ← pow_add, Nat.add_comm r k, hw]
    exact x.isLt
  have hz : x.toNat / 2 ^ k = 0 := by
    simpa [BitVec.extractLsb'_toNat, Nat.shiftRight_eq_div_pow, Nat.mod_eq_of_lt hlt] using congrArg BitVec.toNat h
  exact (Nat.div_eq_zero_iff_lt (by positivity)).1 hz

/-- A field that a mask with all bits from `k` up makes 0 (30_encoding.md R84). -/
theorem lt_of_and_eq_zero {k w : Nat} {x mask : BitVec w} (hm : ∀ i < w, k ≤ i → mask.getLsbD i = true)
    (h : x &&& mask = 0) : x.toNat < 2 ^ k := by
  refine Nat.lt_pow_two_of_testBit _ fun i hi => ?_
  rw [BitVec.testBit_toNat]
  by_cases hiw : i < w
  · simpa [hm i hiw hi] using congrArg (fun y : BitVec w => y.getLsbD i) h
  · exact BitVec.getLsbD_of_ge _ _ (not_lt.1 hiw)

theorem ofBool_getLsbD_zero {w : Nat} (x : BitVec w) : BitVec.ofBool (x.getLsbD 0) = x.extractLsb' 0 1 := by
  ext j hj
  obtain rfl : j = 0 := by omega
  simp

/-! ### The decoder and the encoder -/

theorem ifReservedZero_eq_ok {op : BitVec 8} {zero : Bool} {i j : Instr} :
    ifReservedZero op zero i = .ok j ↔ zero = true ∧ i = j := by
  cases zero <;> simp [ifReservedZero]

/-- The fields of a command spell it. -/
theorem decodeFields_operands (i : Instr) : decodeFields i.opcode i.aOperand i.dOperand = .ok i := by
  cases i with
  | dbit bit => cases bit <;> rfl
  | rdnl | rdnw | rdcb =>
    simp [decodeFields, ifReservedZero, Instr.opcode, Instr.aOperand, Instr.dOperand,
      extractLsb'_setWidth_self, extractLsb'_setWidth_high]
  | _ => rfl

/-- Where the reserved bits are 0, the operands of the command are the fields. -/
theorem operands_of_ifReservedZero {op a : BitVec 8} {d : BitVec 32} {zero : Bool} {i j : Instr}
    (h : ifReservedZero op zero i = .ok j) (hop : op.toNat = i.opcode.toNat)
    (hfields : zero = true → a = i.aOperand ∧ d = i.dOperand) : op = j.opcode ∧ a = j.aOperand ∧ d = j.dOperand := by
  obtain ⟨hzero, rfl⟩ := ifReservedZero_eq_ok.1 h
  exact ⟨BitVec.eq_of_toNat_eq hop, hfields hzero⟩

section
variable {a : BitVec 8} {d : BitVec 32}

theorem fields_of_nothing (h : (a == 0 && d == 0) = true) : a = 0 ∧ d = 0 := by simpa using h

theorem dField_of_low {k r : Nat} (hw : k + r = 32) (h : (d.extractLsb' k r == 0) = true) :
    d = (d.extractLsb' 0 k).setWidth 32 :=
  (setWidth_extractLsb'_of_lt (lt_of_extractLsb'_eq_zero hw (by simpa using h))).symm

theorem fields_of_low {k r : Nat} (hw : k + r = 32) (h : (a == 0 && d.extractLsb' k r == 0) = true) :
    a = 0 ∧ d = (d.extractLsb' 0 k).setWidth 32 := by
  obtain ⟨ha, hd⟩ := Bool.and_eq_true_iff.1 h
  exact ⟨by simpa using ha, dField_of_low hw hd⟩

theorem fields_of_bit (h : (a == 0 && d.extractLsb' 1 31 == 0) = true) :
    a = 0 ∧ d = (BitVec.ofBool (d.getLsbD 0)).setWidth 32 := by
  rw [ofBool_getLsbD_zero]
  exact fields_of_low rfl h

end

/-- The only fields that spell a command are its own: the decoder checks every reserved bit (30_encoding.md R85). One
case for each arm of the decoder, in the order of the opcodes. -/
theorem operands_of_decodeFields {op a : BitVec 8} {d : BitVec 32} {i : Instr} (h : decodeFields op a d = .ok i) :
    op = i.opcode ∧ a = i.aOperand ∧ d = i.dOperand := by
  unfold decodeFields at h
  split at h
  · next hop => exact operands_of_ifReservedZero h hop fields_of_nothing
  · next hop => exact operands_of_ifReservedZero h hop fields_of_nothing
  · next hop => exact operands_of_ifReservedZero h hop fun hd => ⟨rfl, eq_of_beq hd⟩
  · next hop =>
    cases h
    exact ⟨BitVec.eq_of_toNat_eq hop, rfl, rfl⟩
  · next hop => exact operands_of_ifReservedZero h hop fields_of_nothing
  · next hop => exact operands_of_ifReservedZero h hop fields_of_nothing
  · next hop => exact operands_of_ifReservedZero h hop fun hd => ⟨rfl, eq_of_beq hd⟩
  · next hop => exact operands_of_ifReservedZero h hop fields_of_bit
  · next hop => exact operands_of_ifReservedZero h hop fields_of_nothing
  · next hop => exact operands_of_ifReservedZero h hop fields_of_nothing
  · next hop => exact operands_of_ifReservedZero h hop fun hd => ⟨rfl, eq_of_beq hd⟩
  · next hop => exact operands_of_ifReservedZero h hop (fields_of_low rfl)
  · next hop => exact operands_of_ifReservedZero h hop (fields_of_low rfl)
  · next hop => exact operands_of_ifReservedZero h hop fun hd => ⟨rfl, eq_of_beq hd⟩
  · next hop => exact operands_of_ifReservedZero h hop fun hd => ⟨rfl, dField_of_low rfl hd⟩
  · cases h

/-- Settles O1: the fields of a joined word are the ones joined. -/
theorem decodeInvertsEncode : Obligations.DecodeInvertsEncode := by
  intro i
  rw [encode, decode_join, decodeFields_operands]

/-- Settles O2: the fields of a legal word are the operands of its command, and a word is its fields. -/
theorem encodeInvertsDecode : Obligations.EncodeInvertsDecode := by
  intro w i h
  obtain ⟨hop, ha, hd⟩ := operands_of_decodeFields h
  rw [encode, ← hop, ← ha, ← hd, join_fields]

theorem decode_eq_ok_iff {w : CmdWord} {i : Instr} : decode w = .ok i ↔ encode i = w :=
  ⟨encodeInvertsDecode w i, fun h => h ▸ decodeInvertsEncode i⟩

/-! ### The opcode map (30_encoding.md R84) -/

theorem encode_tableRow : ∀ i : Instr, TableRow.Statement i
  | .nop => TableRow.nop
  | .clr => TableRow.clr
  | .cnt sym => TableRow.cnt sym
  | .setf sym count => TableRow.setf sym count
  | .build => TableRow.build
  | .derive => TableRow.derive
  | .enc sym => TableRow.enc sym
  | .dbit bit => TableRow.dbit bit
  | .dend => TableRow.dend
  | .rdst => TableRow.rdst
  | .rdf sym => TableRow.rdf sym
  | .rdnl idx => TableRow.rdnl idx
  | .rdnw idx => TableRow.rdnw idx
  | .rdcl sym => TableRow.rdcl sym
  | .rdcb sym k => TableRow.rdcb sym k

theorem row_eq_of_mnemonic_eq :
    ∀ row ∈ opcodeRows, ∀ row' ∈ opcodeRows, row.mnemonic = row'.mnemonic → row = row' := by decide

theorem encode_and_mask {i : Instr} {row : OpcodeRow} (hrow : row ∈ opcodeRows) (hm : i.mnemonic = row.mnemonic) :
    encode i &&& row.mask = row.pattern := by
  obtain ⟨row', hrow', hm', haccepts⟩ := encode_tableRow i
  obtain rfl := row_eq_of_mnemonic_eq row' hrow' row hrow (hm'.trans hm)
  simpa [OpcodeRow.accepts] using haccepts

section
variable {w : CmdWord}

/-- A word that matches a row, its mask read field by field, is spelled by the command with the word's operands. -/
theorem encode_of_match {pattern mask : CmdWord} {i : Instr} (op am : BitVec 8) (dm : BitVec 32)
    (ha : aField w &&& am = 0 → i.aOperand = aField w) (hd : dField w &&& dm = 0 → i.dOperand = dField w)
    (h : w &&& mask = pattern) (hop : i.opcode = op := by rfl) (hp : pattern = joinFields op 0 0 := by decide)
    (hm : mask = joinFields 0xFF am dm := by decide) : encode i = w := by
  rw [hp, hm, ← join_fields w, join_and, join_inj] at h
  obtain ⟨hfield, hza, hzd⟩ := h
  have hall : opField w &&& 0xFF = opField w := BitVec.and_allOnes
  rw [encode, ha hza, hd hzd, hop, ← hfield, hall, join_fields]

/-- A field whose mask has all its bits is 0. -/
theorem reserved_of_match {n : Nat} {x : BitVec n} (h : x &&& BitVec.allOnes n = 0) : 0 = x := by
  rw [← h, BitVec.and_allOnes]

theorem low_of_match {k : Nat} {dm : BitVec 32} (hz : dField w &&& dm = 0)
    (hm : ∀ i < 32, k ≤ i → dm.getLsbD i = true := by decide) :
    ((dField w).extractLsb' 0 k).setWidth 32 = dField w :=
  setWidth_extractLsb'_of_lt (lt_of_and_eq_zero hm hz)

theorem bit_of_match (hz : dField w &&& 0xFFFFFFFE = 0) :
    (BitVec.ofBool ((dField w).getLsbD 0)).setWidth 32 = dField w := by
  rw [ofBool_getLsbD_zero]
  exact low_of_match hz

/-- A word that matches a row is spelled by a command of the row's mnemonic: one line for each row, with the opcode and
the masks of `A` and `D`. -/
theorem exists_encode_of_match :
    ∀ row ∈ opcodeRows, w &&& row.mask = row.pattern → ∃ i, encode i = w ∧ i.mnemonic = row.mnemonic := by
  simp only [opcodeRows, List.forall_mem_cons]
  exact ⟨fun h => ⟨.nop, encode_of_match 0x00 0xFF 0xFFFFFFFF reserved_of_match reserved_of_match h, rfl⟩,
    fun h => ⟨.clr, encode_of_match 0x01 0xFF 0xFFFFFFFF reserved_of_match reserved_of_match h, rfl⟩,
    fun h => ⟨.cnt (aField w), encode_of_match 0x02 0 0xFFFFFFFF (fun _ => rfl) reserved_of_match h, rfl⟩,
    fun h => ⟨.setf (aField w) (dField w), encode_of_match 0x03 0 0 (fun _ => rfl) (fun _ => rfl) h, rfl⟩,
    fun h => ⟨.build, encode_of_match 0x04 0xFF 0xFFFFFFFF reserved_of_match reserved_of_match h, rfl⟩,
    fun h => ⟨.derive, encode_of_match 0x05 0xFF 0xFFFFFFFF reserved_of_match reserved_of_match h, rfl⟩,
    fun h => ⟨.enc (aField w), encode_of_match 0x06 0 0xFFFFFFFF (fun _ => rfl) reserved_of_match h, rfl⟩,
    fun h => ⟨.dbit _, encode_of_match 0x07 0xFF 0xFFFFFFFE reserved_of_match bit_of_match h, rfl⟩,
    fun h => ⟨.dend, encode_of_match 0x08 0xFF 0xFFFFFFFF reserved_of_match reserved_of_match h, rfl⟩,
    fun h => ⟨.rdst, encode_of_match 0x10 0xFF 0xFFFFFFFF reserved_of_match reserved_of_match h, rfl⟩,
    fun h => ⟨.rdf (aField w), encode_of_match 0x11 0 0xFFFFFFFF (fun _ => rfl) reserved_of_match h, rfl⟩,
    fun h => ⟨.rdnl _, encode_of_match 0x12 0xFF 0xFFFFFE00 reserved_of_match low_of_match h, rfl⟩,
    fun h => ⟨.rdnw _, encode_of_match 0x13 0xFF 0xFFFFFE00 reserved_of_match low_of_match h, rfl⟩,
    fun h => ⟨.rdcl (aField w), encode_of_match 0x14 0 0xFFFFFFFF (fun _ => rfl) reserved_of_match h, rfl⟩,
    fun h => ⟨.rdcb (aField w) _, encode_of_match 0x15 0 0xFFFFFFF8 (fun _ => rfl) low_of_match h, rfl⟩,
    fun _ h => absurd h List.not_mem_nil⟩

theorem match_iff_exists_decode {row : OpcodeRow} (hrow : row ∈ opcodeRows) :
    w &&& row.mask = row.pattern ↔ ∃ i, decode w = .ok i ∧ i.mnemonic = row.mnemonic := by
  constructor
  · intro h
    obtain ⟨i, hi, hm⟩ := exists_encode_of_match row hrow h
    exact ⟨i, decode_eq_ok_iff.2 hi, hm⟩
  · rintro ⟨i, hi, hm⟩
    rw [← decode_eq_ok_iff.1 hi]
    exact encode_and_mask hrow hm

/-- Every legal word matches a row, so a word that matches none is rejected (30_encoding.md R86). -/
theorem no_match_iff_exists_error :
    (∀ row ∈ opcodeRows, w &&& row.mask ≠ row.pattern) ↔ ∃ e, decode w = .error e := by
  cases hw : decode w with
  | ok i =>
    obtain ⟨row, hrow, hm, -⟩ := encode_tableRow i
    have hmatch : w &&& row.mask = row.pattern := (match_iff_exists_decode hrow).2 ⟨i, hw, hm.symm⟩
    simpa using ⟨row, hrow, hmatch⟩
  | error e =>
    refine iff_of_true (fun row hrow hmatch => ?_) ⟨e, rfl⟩
    obtain ⟨i, hi, -⟩ := (match_iff_exists_decode hrow).1 hmatch
    cases hw.symm.trans hi

end

/-- Settles O3: two rows that a word matches both bear the mnemonic of the one command it decodes to. -/
theorem decodeAgreesWithOpcodeTable : Obligations.DecodeAgreesWithOpcodeTable := by
  refine fun w => ⟨fun row hrow => match_iff_exists_decode hrow, no_match_iff_exists_error, ?_⟩
  intro row hrow row' hrow' h h'
  obtain ⟨i, hi, hm⟩ := (match_iff_exists_decode hrow).1 h
  obtain ⟨i', hi', hm'⟩ := (match_iff_exists_decode hrow').1 h'
  obtain rfl : i = i' := by simpa [hi] using hi'
  exact row_eq_of_mnemonic_eq row hrow row' hrow' (hm.symm.trans hm')

theorem opcode_defined (i : Instr) : i.opcode.toNat ≤ 0x08 ∨ 0x10 ≤ i.opcode.toNat ∧ i.opcode.toNat ≤ 0x15 := by
  cases i <;> simp [Instr.opcode]

/-- Settles O4: a word that matches no row is rejected by the decoder, and the opcodes of commands leave out the two
ranges. -/
theorem unmatchedWordIsIllegal : Obligations.UnmatchedWordIsIllegal := by
  constructor
  · intro w s hw
    obtain ⟨e, he⟩ := no_match_iff_exists_error.1 hw
    rw [acceptWord_illegal he]
    exact raise_failsWith .illegal s
  · intro op a d hop row hrow hmatch
    obtain ⟨i, hi, -⟩ := (match_iff_exists_decode hrow).1 hmatch
    rw [decode_join] at hi
    obtain ⟨rfl, -, -⟩ := operands_of_decodeFields hi
    have := opcode_defined i
    omega

/-! ### Words as numbers (30_encoding.md R80, R82) -/

theorem toNat_append_eq_add {m n : Nat} (x : BitVec m) (y : BitVec n) :
    (x ++ y).toNat = x.toNat * 2 ^ n + y.toNat := by
  rw [BitVec.toNat_append, ← Nat.shiftLeft_add_eq_or_of_lt y.isLt, Nat.shiftLeft_eq]

theorem joinFields_toNat (op a : BitVec 8) (d : BitVec 32) :
    (joinFields op a d).toNat = op.toNat * 2 ^ 40 + a.toNat * 2 ^ 32 + d.toNat := by
  rw [joinFields, toNat_append_eq_add, toNat_append_eq_add]
  omega

theorem rspWord_toNat (st : Status) (p : Payload) : (rspWord st p).toNat = st.code.toNat * 2 ^ 44 + p.toNat := by
  simp only [rspWord, toNat_append_eq_add, BitVec.ofNat_eq_ofNat, BitVec.toNat_ofNat]
  omega

/-- Settles O5: a word is its fields joined, and joining is addition at the fields' places. -/
theorem commandWordIsItsFields : Obligations.CommandWordIsItsFields := by
  refine ⟨fun w => ?_, fun op a d => ⟨opField_join op a d, aField_join op a d, dField_join op a d⟩⟩
  rw [← joinFields_toNat, join_fields]

/-! ### The response of every word (30_encoding.md R82) -/

/-- A command leaves one response, with payload 0 unless it succeeds (60_exceptions.md R174). -/
theorem Effect.response {i : Instr} {s t : State} (h : Effect i s t) :
    ∃ st p, t.rspPort = some (rspWord st p) ∧ (st ≠ .ok → p = 0) := by
  cases h with
  | fails st => exact ⟨st, 0, rfl, fun _ => rfl⟩
  | truncates => exact ⟨.truncatedStream, 0, rfl, fun _ => rfl⟩
  | keeps p => exact ⟨.ok, p, rfl, fun h => absurd rfl h⟩
  | counts | sets | derives | reachesInternal | clears => exact ⟨.ok, 0, rfl, fun _ => rfl⟩
  | emits => exact ⟨.ok, _, rfl, fun h => absurd rfl h⟩
  | builds => exact ⟨.ok, _, rfl, fun h => absurd rfl h⟩
  | reachesLeaf bit p => exact ⟨.ok, p, rfl, fun h => absurd rfl h⟩

@[simp] theorem payloadOf_rspWord (st : Status) (p : Payload) : payloadOf (rspWord st p) = p := rspWord_payload st p

/-- Settles O40: every word answers, by the effect of a command or as `ILLEGAL`, with one response of the form of R82. -/
theorem everyWordHasOneResponse : Obligations.EveryWordHasOneResponse := by
  intro w s
  obtain ⟨t, ht⟩ := acceptWord_next w s
  obtain ⟨i, heffect⟩ := acceptWord_effect ht
  obtain ⟨st, p, hrsp, hp⟩ := heffect.response
  refine ⟨t, rspWord st p, ht, hrsp, ?_⟩
  rw [statusOf_rspWord, payloadOf_rspWord]
  exact ⟨rspWord_toNat st p, fun hst => hp (mt (status_code_eq_zero st).2 hst), status_code_le st⟩

/-! ### The command port (30_encoding.md R91) -/

/-- Settles O55: with no output waiting the command port is ready. -/
theorem stepRunsDecodedCommand : Obligations.StepRunsDecodedCommand := by
  intro s w i rest hh heo hrsp hw
  rw [step_offer hh, if_pos ((cmdReady_iff s).2 ⟨heo, hrsp⟩), acceptWord_legal hw]

/-- Settles O56: with an output waiting the command port is not ready, nor is the response offered before the EO bits. -/
theorem busyBlockMakesHostWait : Obligations.BusyBlockMakesHostWait := by
  refine fun s w rest => ⟨fun hh hbusy => ?_, fun hh heo => ?_⟩
  · have hready : ¬ s.cmdReady = true := by
      rw [cmdReady_iff]
      tauto
    rw [step_offer hh, if_neg hready]
  · obtain ⟨-, hs⟩ | ⟨r, hnil, -⟩ := step_takeRsp hh
    · exact hs
    · exact absurd hnil heo

/-! ### Source commands (30_encoding.md R89) -/

@[simp] theorem opField_encode (i : Instr) : opField (encode i) = i.opcode := opField_join _ _ _
@[simp] theorem aField_encode (i : Instr) : aField (encode i) = i.aOperand := aField_join _ _ _
@[simp] theorem dField_encode (i : Instr) : dField (encode i) = i.dOperand := dField_join _ _ _

theorem num_of_isBelow {bound : Nat} {o : SrcOperand} (h : o.isBelow bound = true) : ∃ n < bound, o = .num n := by
  cases o with
  | num n => exact ⟨n, by simpa [SrcOperand.isBelow] using h, rfl⟩
  | chr c => cases h

/-- A `sym` operand fits its field, so the field spells it. -/
theorem spellsSym_of_isSym {o : SrcOperand} (h : o.isSym = true) :
    SpellsSym o (BitVec.ofNat 8 (operandValue o)).toNat := by
  cases o with
  | num n =>
    have hn : n < 256 := by simpa [SrcOperand.isSym] using h
    exact .inl (by simp [operandValue, Nat.mod_eq_of_lt hn])
  | chr c =>
    have hc : c.toNat < 128 := by simpa [SrcOperand.isSym] using h
    exact .inr ⟨c, hc, rfl, by simp only [operandValue, BitVec.toNat_ofNat]; omega⟩

theorem setWidth_ofNat_toNat {k n : Nat} (hk : k ≤ 32) (hn : n < 2 ^ k) :
    ((BitVec.ofNat k n).setWidth 32).toNat = n := by
  rw [BitVec.toNat_setWidth_of_le hk, toNat_ofNat_of_lt hn]

theorem setWidth_bit_toNat {n : Nat} (hn : n < 2) : ((BitVec.ofBool (n == 1)).setWidth 32).toNat = n := by
  interval_cases n <;> rfl

theorem opcode_srcInstr (c : SrcCmd) : (srcInstr c).opcode = mnemonicOpcode c.mnemonic := by
  obtain ⟨m, os⟩ := c
  cases m <;> rfl

section
variable {m : Mnemonic} {os : List SrcOperand}

theorem assembled_nothing (hs : m.shape = .nothing) (hw : SrcCmd.wf ⟨m, os⟩ = true) :
    os = [] ∧ (srcInstr ⟨m, os⟩).aOperand = 0 ∧ (srcInstr ⟨m, os⟩).dOperand = 0 := by
  rw [SrcCmd.wf, hs] at hw
  match os, hw with
  | [], _ => cases m <;> cases hs <;> exact ⟨rfl, rfl, rfl⟩

theorem assembled_sym (hs : m.shape = .sym) (hw : SrcCmd.wf ⟨m, os⟩ = true) :
    ∃ o, os = [o] ∧ SpellsSym o (srcInstr ⟨m, os⟩).aOperand.toNat ∧ (srcInstr ⟨m, os⟩).dOperand = 0 := by
  rw [SrcCmd.wf, hs] at hw
  match os, hw with
  | [o], ho => cases m <;> cases hs <;> exact ⟨o, rfl, spellsSym_of_isSym ho, rfl⟩

theorem assembled_symCount (hs : m.shape = .symCount) (hw : SrcCmd.wf ⟨m, os⟩ = true) :
    ∃ o, os = [o, .num (srcInstr ⟨m, os⟩).dOperand.toNat] ∧ SpellsSym o (srcInstr ⟨m, os⟩).aOperand.toNat := by
  rw [SrcCmd.wf, hs] at hw
  match os, hw with
  | [o, o'], ho =>
    obtain ⟨hsym, hbelow⟩ := Bool.and_eq_true_iff.1 ho
    obtain ⟨n, hn, rfl⟩ := num_of_isBelow hbelow
    have hd : (BitVec.ofNat 32 n).toNat = n := toNat_ofNat_of_lt hn
    cases m <;> cases hs
    exact ⟨o, congrArg (fun v => [o, SrcOperand.num v]) hd.symm, spellsSym_of_isSym hsym⟩

theorem assembled_symChunk (hs : m.shape = .symChunk) (hw : SrcCmd.wf ⟨m, os⟩ = true) :
    ∃ o, os = [o, .num (srcInstr ⟨m, os⟩).dOperand.toNat] ∧ SpellsSym o (srcInstr ⟨m, os⟩).aOperand.toNat := by
  rw [SrcCmd.wf, hs] at hw
  match os, hw with
  | [o, o'], ho =>
    obtain ⟨hsym, hbelow⟩ := Bool.and_eq_true_iff.1 ho
    obtain ⟨n, hn, rfl⟩ := num_of_isBelow hbelow
    have hd := setWidth_ofNat_toNat (k := 3) (by decide) hn
    cases m <;> cases hs
    exact ⟨o, congrArg (fun v => [o, SrcOperand.num v]) hd.symm, spellsSym_of_isSym hsym⟩

theorem assembled_bit (hs : m.shape = .bit) (hw : SrcCmd.wf ⟨m, os⟩ = true) :
    os = [.num (srcInstr ⟨m, os⟩).dOperand.toNat] ∧ (srcInstr ⟨m, os⟩).aOperand = 0 := by
  rw [SrcCmd.wf, hs] at hw
  match os, hw with
  | [o], ho =>
    obtain ⟨n, hn, rfl⟩ := num_of_isBelow ho
    cases m <;> cases hs
    exact ⟨congrArg (fun v => [SrcOperand.num v]) (setWidth_bit_toNat hn).symm, rfl⟩

theorem assembled_idx (hs : m.shape = .idx) (hw : SrcCmd.wf ⟨m, os⟩ = true) :
    os = [.num (srcInstr ⟨m, os⟩).dOperand.toNat] ∧ (srcInstr ⟨m, os⟩).aOperand = 0 := by
  rw [SrcCmd.wf, hs] at hw
  match os, hw with
  | [o], ho =>
    obtain ⟨n, hn, rfl⟩ := num_of_isBelow ho
    have hd := setWidth_ofNat_toNat (k := 9) (by decide) hn
    cases m <;> cases hs <;> exact ⟨congrArg (fun v => [SrcOperand.num v]) hd.symm, rfl⟩

end

/-- Settles O7: the opcode is the mnemonic's, and for each operand shape the fields are the source operands. -/
theorem sourceCommandsAssemble : Obligations.SourceCommandsAssemble := by
  rintro ⟨m, os⟩
  refine ⟨fun hw => by simp [assemble, hw], fun hw => ⟨srcInstr ⟨m, os⟩, by simp [assemble, hw], ?_⟩⟩
  rw [opField_encode, aField_encode, dField_encode]
  exact ⟨decodeInvertsEncode _, opcode_srcInstr _, fun hs => assembled_nothing hs hw, fun hs => assembled_sym hs hw,
    fun hs => hs.elim (assembled_symCount · hw) (assembled_symChunk · hw),
    fun hs => hs.elim (assembled_bit · hw) (assembled_idx · hw)⟩

end Sys2Proof.Proofs
end

section
/-! The frequency counter of 40_frequency_counter.md: CNT, SETF and RDF, O11 to O13 (R100 to R102), and counting a text,
O14 (R103). -/

namespace Sys2Proof.Proofs

open Sys2Proof.Machine Sys2Proof.Safety Sys2Proof.Laws

/-! ### Commands with only a symbol (30_encoding.md R81, R85) -/

theorem onlySym_of_decodeFields {op : BitVec 8} {mk : Sym → Instr}
    (h : ∀ sym d, decodeFields op sym d = ifReservedZero op (d == 0) (mk sym)) : OnlySym op mk := by
  refine fun sym => ⟨by simp [h, ifReservedZero], fun d s hd => ?_⟩
  have herr : decode (joinFields op sym d) = .error (.reservedBitSet op) := by
    rw [decode_join, h, ifReservedZero, beq_false_of_ne hd]
    rfl
  rw [acceptWord_illegal herr]
  exact raise_failsWith .illegal s

/-! ### One command -/

@[simp] theorem count_answer (s : State) (st : Status) (p : Payload) (b : Sym) :
    (s.answer st p).count b = s.count b := rfl

theorem toNat_countMax : Config.countMax.toNat = 2 ^ 32 - 1 := rfl

/-- Below the largest value a count does not wrap (00_scope.md R15 (a)). -/
theorem toNat_succ_of_ne_countMax {c : Count} (h : c ≠ Config.countMax) : (c + 1).toNat = c.toNat + 1 := by
  have hne : c.toNat ≠ 2 ^ 32 - 1 := fun e => h (BitVec.eq_of_toNat_eq (e.trans toNat_countMax.symm))
  exact BitVec.toNat_add_of_lt (show c.toNat + 1 < 2 ^ 32 by omega)

theorem execCnt_failsWith_overflow {sym : Sym} {s : State} (h : s.count sym = Config.countMax) :
    FailsWith 7 (exec (.cnt sym) s) s := by
  obtain ⟨-, he⟩ | ⟨hne, -⟩ := execCnt_cases sym s
  · rw [he]
    exact raise_failsWith .overflow s
  · exact absurd h hne

theorem execCnt_of_ne {sym : Sym} {s : State} (h : s.count sym ≠ Config.countMax) :
    exec (.cnt sym) s = .next ((s.setFreq sym.toNat (s.count sym + 1)).answer .ok 0) := by
  obtain ⟨heq, -⟩ | ⟨-, he⟩ := execCnt_cases sym s
  · exact absurd heq h
  · exact he

/-- Settles O11: CNT writes the count plus one, which does not wrap because the largest count is refused before. -/
theorem cntCountsOneOccurrence : Obligations.CntCountsOneOccurrence := by
  refine ⟨onlySym_of_decodeFields fun _ _ => rfl, fun sym s => ⟨fun hne => ?_, execCnt_failsWith_overflow⟩⟩
  refine ⟨_, execCnt_of_ne hne, ?_, fun b hb => ?_, rfl⟩
  · rw [count_answer, count_setFreq, if_pos rfl, toNat_succ_of_ne_countMax hne]
  · rw [count_answer, count_setFreq, if_neg hb]

theorem toNat_mem_present (s : State) (b : Sym) : b.toNat ∈ s.present ↔ s.count b ≠ 0 := by
  rw [mem_present, count_def]
  exact and_iff_right b.isLt

/-- Settles O12: what SETF wrote is what the map and a following CNT read. -/
theorem setfSetsCount : Obligations.SetfSetsCount := by
  intro sym count s
  have hsym : ((s.setFreq sym.toNat count).answer .ok 0).count sym = count := by
    rw [count_answer, count_setFreq, if_pos rfl]
  refine ⟨decode_join _ _ _, _, execSetf_eq sym count s, hsym, fun b hb => ?_, rfl, fun hzero => ?_, fun hmax => ?_⟩
  · rw [count_answer, count_setFreq, if_neg hb]
  · rw [toNat_mem_present, hsym]
    exact not_not_intro hzero
  · exact execCnt_failsWith_overflow (hsym.trans hmax)

/-- BUILD discards the counts (41_tree_builder.md R112). -/
theorem count_eq_zero_of_execBuild {s t : State} (hne : ∃ b : Sym, s.count b ≠ 0) (h : exec .build s = .next t)
    (b : Sym) : t.count b = 0 := by
  obtain ⟨hempty, -⟩ | ⟨-, he⟩ := execBuild_cases s
  · obtain ⟨c, hc⟩ := hne
    exact absurd ((present_eq_nil s).1 hempty c) hc
  · cases he.symm.trans h
    rfl

/-- Settles O13: the payload is the count, and a response `OK` is its payload. -/
theorem rdfReadsCount : Obligations.RdfReadsCount := by
  refine ⟨onlySym_of_decodeFields fun _ _ => rfl, fun sym s => ⟨?_, fun _ hne h => count_eq_zero_of_execBuild hne h _⟩⟩
  rw [execRdf_eq, respond_eq, countPayload, BitVec.setWidth_setWidth (by decide)]

/-! ### A text -/

/-- Serving a command's own word executes the command. -/
theorem serve_encode {i : Instr} {s u : State} {r : RspWord} (h : exec i s = .next u) (hr : u.rspPort = some r) :
    serve (encode i) s = some ({ u with eoPort := [], rspPort := none }, r, u.eoPort) := by
  simp [serve, acceptWord_legal (decodeInvertsEncode i), h, hr]

theorem serveAll_cons {i : Instr} {rest : List Instr} {s u t : State} {r : RspWord} {bits : List Bool}
    {replies : List (RspWord × List Bool)} (h : serve (encode i) s = some (u, r, bits))
    (hrest : serveAll rest u = some (t, replies)) : serveAll (i :: rest) s = some (t, (r, bits) :: replies) := by
  simp [serveAll, h, hrest]

theorem allOk_cons {a : RspWord × List Bool} {replies : List (RspWord × List Bool)} (ha : statusOf a.1 = 0)
    (h : AllOk replies) : AllOk (a :: replies) := List.forall_mem_cons.2 ⟨ha, h⟩

/-- On idle ports a CNT that does not overflow leaves only its count changed. -/
theorem serve_cnt {sym : Sym} {s : State} (hidle : s.cmdReady = true) (hne : s.count sym ≠ Config.countMax) :
    serve (encode (.cnt sym)) s = some (s.setFreq sym.toNat (s.count sym + 1), 0, []) := by
  obtain ⟨heo, hrsp⟩ := (cmdReady_iff s).1 hidle
  rw [serve_encode (execCnt_of_ne hne) rfl]
  obtain ⟨⟩ := s
  subst heo hrsp
  rfl

theorem toNat_count_setFreq_succ {sym : Sym} {s : State} (hne : s.count sym ≠ Config.countMax) (b : Sym) :
    ((s.setFreq sym.toNat (s.count sym + 1)).count b).toNat = (s.count b).toNat + if sym = b then 1 else 0 := by
  rw [count_setFreq]
  by_cases hb : b = sym
  · rw [if_pos hb, toNat_succ_of_ne_countMax hne, hb, if_pos rfl]
  · rw [if_neg hb, if_neg (Ne.symm hb), add_zero]

/-- Counting a text adds the occurrences in it to the counts there were, from any map that has room for them. -/
theorem serveAll_countsCmds (text : List Sym) {s : State} (hidle : s.cmdReady = true)
    (hroom : ∀ b : Sym, (s.count b).toNat + text.count b < 2 ^ 32) :
    ∃ t replies, serveAll (countsCmds text) s = some (t, replies) ∧ AllOk replies ∧
      (∀ b : Sym, (t.count b).toNat = (s.count b).toNat + text.count b) ∧ t = { s with freq := t.freq } := by
  induction text generalizing s with
  | nil => exact ⟨s, [], rfl, List.forall_mem_nil _, fun _ => rfl, rfl⟩
  | cons sym text ih =>
    have hne : s.count sym ≠ Config.countMax := by
      intro hmax
      have hlt := hroom sym
      rw [hmax, List.count_cons_self] at hlt
      have := toNat_countMax
      omega
    have hcount (b : Sym) : ((s.setFreq sym.toNat (s.count sym + 1)).count b).toNat + text.count b =
        (s.count b).toNat + (sym :: text).count b := by
      rw [toNat_count_setFreq_succ hne, List.count_cons]
      simp only [beq_iff_eq]
      omega
    obtain ⟨t, replies, hserve, hok, ht, hframe⟩ :=
      ih (s := s.setFreq sym.toNat (s.count sym + 1)) hidle fun b => hcount b ▸ hroom b
    exact ⟨t, _, serveAll_cons (serve_cnt hidle hne) hserve, allOk_cons (by decide) hok,
      fun b => (ht b).trans (hcount b), hframe⟩

/-- Settles O14: in the empty map the counts there were are 0. -/
theorem countsAreOccurrences : Obligations.CountsAreOccurrences := by
  intro text s hidle hempty hlt
  simpa [hempty] using serveAll_countsCmds text hidle (by simpa [hempty] using hlt)

end Sys2Proof.Proofs
end

section
/-! The tree builder of 41_tree_builder.md: BUILD, O15 to O21 (R111 to R116), and the two commands that read a node,
O22 and O23 (R117, R118). -/

namespace Sys2Proof.Proofs

open Sys2Proof.Machine Sys2Proof.Safety Sys2Proof.Laws

/-! ### Commands with no operand or only an index (30_encoding.md R81, R85) -/

/-- A word with a reserved bit set fails whatever its command is. -/
theorem acceptWord_reserved {op a : BitVec 8} {d : BitVec 32} {zero : Bool} {i : Instr}
    (h : decodeFields op a d = ifReservedZero op zero i) (hz : zero = false) (s : State) :
    FailsWith 4 (acceptWord (joinFields op a d) s) s := by
  have herr : decode (joinFields op a d) = .error (.reservedBitSet op) := by
    rw [decode_join, h, hz]
    rfl
  rw [acceptWord_illegal herr]
  exact raise_failsWith .illegal s

theorem noOperands_of_decodeFields {op : BitVec 8} {i : Instr}
    (h : ∀ a d, decodeFields op a d = ifReservedZero op (a == 0 && d == 0) i) : NoOperands op i :=
  ⟨by simp [h, ifReservedZero], fun a d s hne =>
    acceptWord_reserved (h a d) (by simpa [imp_iff_not_or] using hne) s⟩

theorem onlyIndex_of_decodeFields {op : BitVec 8} {mk : NodeIx → Instr}
    (h : ∀ a d, decodeFields op a d =
      ifReservedZero op (a == 0 && d.extractLsb' 9 23 == 0) (mk (d.extractLsb' 0 9))) : OnlyIndex op mk := by
  refine ⟨fun idx => ?_, fun a d s hne => acceptWord_reserved (h a d) ?_ s⟩
  · rw [decode_join, h, extractLsb'_setWidth_self (by decide), extractLsb'_setWidth_high]
    rfl
  · by_contra hzero
    obtain ⟨ha, hd⟩ : a = 0 ∧ d.extractLsb' 9 23 = 0 := by simpa using hzero
    have hlt := lt_of_extractLsb'_eq_zero rfl hd
    exact hne.elim (absurd ha) (by omega)

/-! ### The answer of a successful BUILD -/

theorem present_ne_nil {s : State} (hne : ∃ b : Sym, s.count b ≠ 0) : s.present ≠ [] := by
  obtain ⟨b, hb⟩ := hne
  exact fun hnil => hb ((present_eq_nil s).1 hnil b)

/-- The state a successful BUILD leaves, its response offered. -/
def answeredBuild (s : State) : State :=
  (builtState s).answer .ok (buildPayload (builtState s).root (builtState s).nleaf)

theorem execBuild_of_exists {s : State} (hne : ∃ b : Sym, s.count b ≠ 0) :
    exec .build s = .next (answeredBuild s) := by
  obtain ⟨hnil, -⟩ | ⟨-, he⟩ := execBuild_cases s
  · exact absurd hnil (present_ne_nil hne)
  · exact he

/-- The response written out (30_encoding.md R83). -/
theorem rspWord_buildPayload (root nleaf : NodeIx) :
    rspWord .ok (buildPayload root nleaf) = (0 : BitVec 30) ++ root ++ nleaf := by
  rw [rspWord_ok, buildPayload]
  rfl

/-- Settles O15: on the empty map no byte is present. -/
theorem buildOnEmptyMapFails : Obligations.BuildOnEmptyMapFails := by
  refine ⟨noOperands_of_decodeFields fun _ _ => rfl, fun s hempty => ?_⟩
  obtain ⟨-, he⟩ | ⟨hp, -⟩ := execBuild_cases s
  · rw [he]
    exact raise_failsWith .emptyInput s
  · exact absurd ((present_eq_nil s).2 hempty) hp

/-- A field of a word is what was joined there. -/
theorem extractLsb'_append_field {k m n : Nat} (x : BitVec k) (y : BitVec m) (z : BitVec n) :
    (x ++ y ++ z).extractLsb' n m = y := by
  rw [BitVec.extractLsb'_append_eq_of_le le_rfl, BitVec.extractLsb'_append_eq_of_add_le (by omega), Nat.sub_self,
    BitVec.extractLsb'_eq_self]

/-- Settles O16: the registers are those of `builtState`, the response's fields its root and number of leaves. -/
theorem buildCompletes : Obligations.BuildCompletes := by
  intro s hne
  refine ⟨_, _, execBuild_of_exists hne, rfl, builtState_nleaf s, builtState_root s, fun _ => rfl, rfl, fun _ => rfl,
    rfl, rfl, rfl, ?_, ?_, ?_, rfl⟩ <;> rw [rspWord_buildPayload]
  · exact (BitVec.extractLsb'_append_eq_of_add_le le_rfl).trans BitVec.extractLsb'_eq_self
  · exact extractLsb'_append_field _ _ _
  · rw [BitVec.extractLsb'_append_eq_of_le (by decide), BitVec.extractLsb'_append_eq_of_le (by decide)]
    rfl

/-! ### The leaves (R111) -/

/-- Settles O17: the symbols are the bytes present, in the order of `State.present`. -/
theorem buildMakesLeavesAscending : Obligations.BuildMakesLeavesAscending := by
  intro s hne
  have hp := present_ne_nil hne
  have hbyte : ∀ b ∈ s.present, (BitVec.ofNat 8 b).toNat = b := fun b hb =>
    toNat_ofNat_of_lt ((mem_present s b).1 hb).1
  refine ⟨_, execBuild_of_exists hne, s.present.map (BitVec.ofNat 8), ?_, fun b => ?_, ?_, fun j b hj => ?_⟩
  · rw [List.pairwise_map]
    exact (present_sorted s).imp_of_mem fun ha hb hlt => by rwa [hbyte _ ha, hbyte _ hb]
  · rw [← toNat_mem_present, List.mem_map]
    constructor
    · rintro ⟨c, hc, rfl⟩
      rwa [hbyte c hc]
    · exact fun hb => ⟨_, hb, by simp⟩
  · rw [List.length_map]
    exact builtState_nleaf s
  · obtain ⟨c, hc, rfl⟩ : ∃ c, s.present[j]? = some c ∧ BitVec.ofNat 8 c = b := by simpa using hj
    obtain ⟨hlt, rfl⟩ := List.getElem?_eq_some_iff.1 hc
    rw [count_def, hbyte _ (List.getElem_mem hlt)]
    exact builtState_nodeAt_leaf hp hlt

/-! ### The merges (R112 to R114) -/

theorem MergeInv.nodup {leaves nodes : List Node} {q : List Nat} (h : MergeInv leaves nodes q) : q.Nodup :=
  (h.links_perm.nodup_iff.2 List.nodup_range).sublist (List.sublist_append_right _ _)

theorem mem_arenaLinks {n j : Nat} {nodes : List Node} : j ∈ arenaLinks n nodes ↔
    ∃ i, n ≤ i ∧ i < nodes.length ∧ ((nodeIn nodes i).l.toNat = j ∨ (nodeIn nodes i).r.toNat = j) := by
  simp only [arenaLinks, List.mem_flatMap, mem_drop_range, List.mem_cons, List.not_mem_nil, or_false, and_assoc,
    eq_comm (a := j)]

/-- The collection holds exactly the entries that no internal entry owns. -/
theorem MergeInv.mem_iff {leaves nodes : List Node} {q : List Nat} (h : MergeInv leaves nodes q) {j : Nat} :
    j ∈ q ↔ j < nodes.length ∧ j ∉ arenaLinks leaves.length nodes := by
  have hmem := h.links_perm.mem_iff (a := j)
  have hdisj := List.disjoint_of_nodup_append (h.links_perm.nodup_iff.2 List.nodup_range)
  rw [List.mem_append, List.mem_range] at hmem
  exact ⟨fun hq => ⟨hmem.1 (.inr hq), fun hlink => hdisj hlink hq⟩,
    fun ⟨hlt, hlink⟩ => (hmem.2 hlt).resolve_left hlink⟩

/-- Entry `k` was made by a round of the merge loop, from the arena of the entries before it. -/
inductive MadeByRound (leaves nodes : List Node) : Nat → Prop
  | intro {earlier : List Node} {q q₁ q₂ : List Nat} {a b : Nat} (inv : MergeInv leaves earlier q)
      (first : extractMin earlier q = some (a, q₁)) (second : extractMin earlier q₁ = some (b, q₂))
      (kept : earlier ++ [mergedNode earlier a b] <+: nodes) : MadeByRound leaves nodes earlier.length

theorem MadeByRound.of_isPrefix {leaves nodes more : List Node} {k : Nat} (h : MadeByRound leaves nodes k)
    (hmore : nodes <+: more) : MadeByRound leaves more k := by
  obtain ⟨inv, first, second, kept⟩ := h
  exact .intro inv first second (kept.trans hmore)

/-- `MergeInv`, and every internal entry so far comes from a round. -/
def MadeByRounds (leaves nodes : List Node) (q : List Nat) : Prop :=
  MergeInv leaves nodes q ∧ ∀ k, leaves.length ≤ k → k < nodes.length → MadeByRound leaves nodes k

theorem madeByRounds_leaves (leaves : List Node) : MadeByRounds leaves leaves (List.range leaves.length) :=
  ⟨mergeInv_leaves leaves, fun _ hk hlt => absurd hlt (not_lt.2 hk)⟩

theorem MadeByRounds.round {leaves nodes : List Node} {q q₁ q₂ : List Nat} {a b : Nat}
    (h : MadeByRounds leaves nodes q) (hle : leaves.length ≤ 256) (hw : (leaves.map (fun n => n.w.toNat)).sum < 2 ^ 40)
    (h₁ : extractMin nodes q = some (a, q₁)) (h₂ : extractMin nodes q₁ = some (b, q₂)) :
    MadeByRounds leaves (nodes ++ [mergedNode nodes a b]) (q₂ ++ [nodes.length]) := by
  obtain ⟨inv, hmade⟩ := h
  refine ⟨inv.round hle hw h₁ h₂, fun k hk hlt => ?_⟩
  obtain hold | rfl : k < nodes.length ∨ k = nodes.length := by simp at hlt; omega
  · exact (hmade k hk hold).of_isPrefix (List.prefix_append _ _)
  · exact .intro inv h₁ h₂ List.prefix_rfl

theorem madeByRound_buildArena {leaves : List Node} (hne : leaves ≠ []) (hle : leaves.length ≤ 256)
    (hw : (leaves.map (fun n => n.w.toNat)).sum < 2 ^ 40) {k : Nat} (hk : leaves.length ≤ k)
    (hlt : k < (buildArena leaves).length) : MadeByRound leaves (buildArena leaves) k := by
  have hpos : 0 < leaves.length := List.length_pos_iff.2 hne
  obtain ⟨q, ⟨-, hmade⟩, -⟩ := mergeRounds_induct (MadeByRounds leaves)
    (fun _ _ _ _ _ _ h h₁ h₂ => h.round hle hw h₁ h₂) (leaves.length - 1) leaves (List.range leaves.length)
    (by simp; omega) (madeByRounds_leaves leaves)
  exact hmade k hk hlt

section
variable {s : State} {nodes : List Node} (hpre : nodes <+: buildArena s.leaves)
include hpre

theorem builtState_nodeAt_of_isPrefix {i : Nat} (hi : i < nodes.length) :
    (builtState s).nodeAt i = nodeIn nodes i := by
  rw [builtState_nodeAt (hi.trans_le hpre.length_le), nodeIn_of_isPrefix hpre hi]

theorem precedes_builtState_iff {i j : Nat} (hi : i < nodes.length) (hj : j < nodes.length) :
    Precedes (builtState s) i j ↔ before nodes i j = true := by
  rw [Precedes, builtState_nodeAt_of_isPrefix hpre hi, builtState_nodeAt_of_isPrefix hpre hj, before_iff]

theorem inCollection_builtState_iff {q : List Nat} (inv : MergeInv s.leaves nodes q) (j : Nat) :
    InCollection (builtState s) nodes.length j ↔ j ∈ q := by
  rw [inv.mem_iff, mem_arenaLinks, InCollection, builtState_nleaf s, leaves_length]
  refine and_congr_right fun _ => ⟨fun h ⟨i, hni, hi, hlink⟩ => ?_, fun h i hni hi => ?_⟩
  · obtain ⟨hl, hr⟩ := h i hni hi
    rw [builtState_nodeAt_of_isPrefix hpre hi] at hl hr
    exact hlink.elim hl hr
  · rw [builtState_nodeAt_of_isPrefix hpre hi]
    exact ⟨fun hl => h ⟨i, hni, hi, .inl hl⟩, fun hr => h ⟨i, hni, hi, .inr hr⟩⟩

end

/-- A round takes out the smallest and then the smallest of the rest. -/
theorem MadeByRound.mergesTwoSmallest {s : State} {k : Nat} (h : MadeByRound s.leaves (buildArena s.leaves) k) :
    MergesTwoSmallest (builtState s) k := by
  obtain @⟨earlier, q, q₁, q₂, a, b, inv, first, second, kept⟩ := h
  have hpre := (List.prefix_append earlier _).trans kept
  have hperm : (a :: b :: q₂).Perm q := ((extractMin_perm second).cons a).trans (extractMin_perm first)
  have hlt : ∀ j ∈ q, j < earlier.length := fun j hj => (inv.mem_iff.1 hj).1
  have ha : a ∈ q := hperm.mem_iff.1 (by simp)
  have hb : b ∈ q := hperm.mem_iff.1 (by simp)
  have hnodup₁ : q₁.Nodup := (List.nodup_cons.1 ((extractMin_perm first).nodup_iff.2 inv.nodup)).2
  have hnode : (builtState s).nodeAt earlier.length = mergedNode earlier a b := by
    rw [builtState_nodeAt_of_isPrefix kept (by simp), nodeIn_append_new]
  have hlen : earlier.length ≤ 512 := by
    have hadd := inv.length_add
    have hle := present_length_le s
    rw [leaves_length] at hadd
    omega
  have hl : (mergedNode earlier a b).l.toNat = a := toNat_ofNat_of_lt ((hlt a ha).trans_le hlen)
  have hr : (mergedNode earlier a b).r.toNat = b := toNat_ofNat_of_lt ((hlt b hb).trans_le hlen)
  rw [MergesTwoSmallest, hnode, hl, hr]
  simp only [inCollection_builtState_iff hpre inv]
  refine ⟨ha, hb, ?_, fun j hj hja hjb => ?_⟩
  · rw [precedes_builtState_iff hpre (hlt a ha) (hlt b hb)]
    exact extractMin_least first inv.nodup b ((extractMin_perm second).mem_iff.1 (by simp))
  · rw [precedes_builtState_iff hpre (hlt b hb) (hlt j hj)]
    exact extractMin_least second hnodup₁ j (by simpa [hja, hjb] using hperm.mem_iff.2 hj)

theorem builtState_mergesTwoSmallest {s : State} (hp : s.present ≠ []) {k : Nat}
    (hk : (builtState s).nleaf.toNat ≤ k) (hlt : k < (builtState s).nnodes) :
    InternalEntry (builtState s) k ∧ MergesTwoSmallest (builtState s) k := by
  rw [builtState_nleaf s] at hk
  rw [builtState_nnodes hp] at hlt
  have hle := present_length_le s
  rw [← leaves_length] at hk hle
  exact ⟨builtState_internal hp hlt (by simpa using hk),
    (madeByRound_buildArena (leaves_ne_nil hp) hle (leaves_weight_sum_lt s) hk hlt).mergesTwoSmallest⟩

/-- Settles O18: every internal entry was made by a round. -/
theorem buildMergesTwoSmallest : Obligations.BuildMergesTwoSmallest := fun _ hne =>
  ⟨_, execBuild_of_exists hne, fun _ hk hlt => builtState_mergesTwoSmallest (present_ne_nil hne) hk hlt⟩

/-! ### What the tree is worth (R116) -/

/-- The bytes not present weigh nothing. -/
theorem sum_leaves_weight (s : State) :
    (s.leaves.map (fun n => n.w.toNat)).sum = ((List.range 256).map (fun b => (s.freqAt b).toNat)).sum := by
  have hw : ∀ b, (leafNode b (s.freqAt b)).w.toNat = (s.freqAt b).toNat := fun b =>
    BitVec.toNat_setWidth_of_le (by decide)
  have hpresent : s.present = (List.range 256).filter (fun b => (s.freqAt b).toNat != 0) :=
    List.filter_congr fun b _ => by
      rw [Bool.eq_iff_iff]
      simp [← BitVec.toNat_inj]
  calc (s.leaves.map (fun n => n.w.toNat)).sum
      = (s.present.map (fun b => (s.freqAt b).toNat)).sum := by simp [State.leaves, Function.comp_def, hw]
    _ = (((List.range 256).map (fun b => (s.freqAt b).toNat)).filter (· != 0)).sum := by
      rw [hpresent, List.filter_map]
      rfl
    _ = ((List.range 256).map (fun b => (s.freqAt b).toNat)).sum := List.sum_filter_bne_zero _

theorem builtState_root_lt_nnodes {s : State} (hp : s.present ≠ []) :
    (builtState s).root.toNat < (builtState s).nnodes := by
  have hpos := List.length_pos_iff.2 hp
  rw [nnodes_def, builtState_nleaf s, builtState_root s]
  omega

/-- Settles O19: the merge loop keeps the weight of the collection, at the end that of the root. -/
theorem buildConservesWeight : Obligations.BuildConservesWeight := by
  intro s hne
  have hp := present_ne_nil hne
  have hroot := builtState_root_lt_nnodes hp
  refine ⟨_, execBuild_of_exists hne, ?_, ?_⟩
  · have hweight : weightIn (buildArena s.leaves) (2 * s.present.length - 2) =
        (s.leaves.map (fun n => n.w.toNat)).sum := by
      simpa using (mergeInv_built hp).weight_sum
    rw [builtState_nnodes hp] at hroot
    rw [← sum_leaves_weight, ← hweight, ← builtState_root s, weightIn, ← builtState_nodeAt hroot]
    rfl
  · obtain ⟨ht, -⟩ | ⟨-, hle, -⟩ | ⟨-, -, he⟩ := execRdnw_cases (answeredBuild s).root (answeredBuild s)
    · cases ht
    · exact absurd hroot (not_lt.2 hle)
    · rw [he, respond_eq]

/-- Two states with the same counts have the same bytes present, and so the same leaves. -/
theorem present_and_leaves_congr {s s' : State} (h : ∀ b : Sym, s'.count b = s.count b) :
    s'.present = s.present ∧ s'.leaves = s.leaves := by
  have hfreq : ∀ b < 256, s'.freqAt b = s.freqAt b := fun b hb => by
    simpa [count_def, Nat.mod_eq_of_lt hb] using h (BitVec.ofNat 8 b)
  have hp : s'.present = s.present :=
    List.filter_congr fun b hb => by rw [hfreq b (List.mem_range.1 hb)]
  refine ⟨hp, ?_⟩
  rw [State.leaves, hp]
  exact List.map_congr_left fun b hb => by rw [hfreq b ((mem_present s b).1 hb).1]

/-- Settles O20: BUILD reads the counts only, through the leaves. -/
theorem buildIsFunctionOfCounts : Obligations.BuildIsFunctionOfCounts := by
  intro s s' hne hcount
  obtain ⟨hpresent, hleaves⟩ := present_and_leaves_congr hcount
  have hnleaf : (builtState s').nleaf = (builtState s).nleaf :=
    BitVec.eq_of_toNat_eq (by rw [builtState_nleaf, builtState_nleaf, hpresent])
  have hroot : (builtState s').root = (builtState s).root :=
    BitVec.eq_of_toNat_eq (by rw [builtState_root, builtState_root, hpresent])
  refine ⟨_, _, execBuild_of_exists hne, execBuild_of_exists (by simpa only [hcount] using hne), hnleaf, hroot, ?_,
    fun i hi => ?_⟩
  · simp only [answeredBuild, answer_rspPort, hnleaf, hroot]
  · have hi : i < (buildArena s.leaves).length := builtState_nnodes (present_ne_nil hne) ▸ hi
    show (builtState s').nodeAt i = (builtState s).nodeAt i
    rw [builtState_nodeAt hi, builtState_nodeAt (by rwa [hleaves]), hleaves]

/-- What is left in the collection, and the merge itself, weigh at least what a merge takes out. -/
theorem weight_le_succ_of_mergesTwoSmallest {s : State} {k : Nat} (hk : s.nleaf.toNat ≤ k) (hint : InternalEntry s k)
    (hmin : MergesTwoSmallest s k) (hint' : InternalEntry s (k + 1)) (hmin' : MergesTwoSmallest s (k + 1)) :
    (s.nodeAt k).w.toNat ≤ (s.nodeAt (k + 1)).w.toNat := by
  obtain ⟨-, -, -, -, -, hw⟩ := hint
  obtain ⟨-, -, -, -, -, hw'⟩ := hint'
  obtain ⟨-, -, hfirst, hrest⟩ := hmin
  obtain ⟨hl', hr', -, -⟩ := hmin'
  have hlater : ∀ j, InCollection s (k + 1) j → j = k ∨
      (s.nodeAt (s.nodeAt k).r.toNat).w.toNat ≤ (s.nodeAt j).w.toNat := by
    rintro j ⟨hj, howner⟩
    refine or_iff_not_imp_left.2 fun hjk => ?_
    obtain ⟨hjl, hjr⟩ := howner k hk (Nat.lt_succ_self k)
    have hprec := hrest j ⟨by omega, fun i hni hi => howner i hni (by omega)⟩ (Ne.symm hjl) (Ne.symm hjr)
    unfold Precedes at hprec
    omega
  unfold Precedes at hfirst
  obtain hl | hl := hlater _ hl'
  · rw [hw', hl]
    omega
  · obtain hr | hr := hlater _ hr'
    · rw [hw', hr]
      omega
    · omega

/-- Settles O21: a merge takes out the two smallest, so the next one takes out none smaller. -/
theorem buildWeightsNeverDecrease : Obligations.BuildWeightsNeverDecrease := by
  intro s hne
  have hp := present_ne_nil hne
  refine ⟨_, execBuild_of_exists hne, fun i hi hlt => ?_⟩
  obtain ⟨hint, hmin⟩ := builtState_mergesTwoSmallest hp hi (Nat.lt_of_succ_lt hlt)
  obtain ⟨hint', hmin'⟩ := builtState_mergesTwoSmallest hp (Nat.le_succ_of_le hi) hlt
  exact weight_le_succ_of_mergesTwoSmallest hi hint hmin hint' hmin'

/-! ### Reading a node (R117, R118) -/

/-- `NOTREE`, then `RANGE`, else the field read. -/
theorem nodeRead_answers {i : Instr} {idx : NodeIx} {s : State} (field : Node → Payload)
    (hsome : ∀ st, s.nodeReadFailure idx = some st → exec i s = raise st s)
    (hnone : s.nodeReadFailure idx = none → exec i s = respond (field (s.nodeAt idx.toNat)) s) :
    (s.tv = false → FailsWith 5 (exec i s) s) ∧
    (s.tv = true → 2 * s.nleaf.toNat - 1 ≤ idx.toNat → FailsWith 6 (exec i s) s) ∧
    (s.tv = true → idx.toNat < 2 * s.nleaf.toNat - 1 →
      exec i s = .next { s with rspPort := some ((field (s.nodeAt idx.toNat)).setWidth 48) }) := by
  rw [← nnodes_def]
  obtain ⟨ht, h⟩ | ⟨ht, hi, h⟩ | ⟨ht, hi, h⟩ := nodeReadFailure_cases idx s
  · rw [hsome _ h]
    exact ⟨fun _ => raise_failsWith .noTree s, by simp [ht], by simp [ht]⟩
  · rw [hsome _ h]
    exact ⟨by simp [ht], fun _ _ => raise_failsWith .range s, fun _ hlt => absurd hlt (not_lt.2 hi)⟩
  · rw [hnone h]
    exact ⟨by simp [ht], fun _ hle => absurd hi (not_lt.2 hle), fun _ _ => respond_eq _ _⟩

/-- Settles O23: the field read is the weight. -/
theorem rdnwReadsWeight : Obligations.RdnwReadsWeight :=
  ⟨onlyIndex_of_decodeFields fun _ _ => rfl, fun _ _ =>
    nodeRead_answers Node.w (fun _ h => execRdnw_some h) execRdnw_none⟩

/-- The response of RDNL written out (30_encoding.md R83). -/
theorem linksPayload_setWidth (n : Node) :
    (linksPayload n).setWidth 48 = (0 : BitVec 21) ++ n.r ++ n.l ++ n.sym ++ tagBit n.tag := rfl

theorem linksPayload_tag (n : Node) : ((linksPayload n).setWidth 48).getLsbD 0 = true ↔ n.tag = .internal := by
  rw [linksPayload_setWidth, BitVec.getLsbD_append]
  cases n.tag <;> simp [tagBit]

/-- The fields of the response (30_encoding.md R83). -/
theorem linksPayload_fields (n : Node) :
    ((linksPayload n).setWidth 48).extractLsb' 1 8 = n.sym ∧ ((linksPayload n).setWidth 48).extractLsb' 9 9 = n.l ∧
    ((linksPayload n).setWidth 48).extractLsb' 18 9 = n.r ∧ ((linksPayload n).setWidth 48).extractLsb' 27 21 = 0 := by
  rw [linksPayload_setWidth]
  refine ⟨extractLsb'_append_field _ _ _, ?_, ?_, ?_⟩ <;> rw [BitVec.extractLsb'_append_eq_of_le (by decide)]
  · exact extractLsb'_append_field _ _ _
  · rw [BitVec.extractLsb'_append_eq_of_le (by decide)]
    exact extractLsb'_append_field _ _ _
  · rw [BitVec.extractLsb'_append_eq_of_le (by decide), BitVec.extractLsb'_append_eq_of_le (by decide),
      BitVec.extractLsb'_append_eq_of_le (by decide)]
    rfl

/-- In a tree the entries below `NLEAF` are leaves with links 0, the others internal with symbol 0 (R30 (a), (b)). -/
theorem unusedFields_of_treeInv {s : State} (h : TreeInv s) (ht : s.tv = true) {i : Nat} (hi : i < s.nnodes) :
    ((s.nodeAt i).tag ≠ .internal → (s.nodeAt i).l = 0 ∧ (s.nodeAt i).r = 0) ∧
    ((s.nodeAt i).tag = .internal → (s.nodeAt i).sym = 0) := by
  obtain ⟨-, hleaf, -, hint, -⟩ := h ht
  obtain hlt | hle := lt_or_ge i s.nleaf.toNat
  · obtain ⟨hg, hl, hr, -⟩ := hleaf i hlt
    exact ⟨fun _ => ⟨hl, hr⟩, by simp [hg]⟩
  · obtain ⟨hg, hs, -⟩ := hint i hi hle
    exact ⟨by simp [hg], fun _ => hs⟩

/-- Settles O22: the fields read are those of the node, and in a tree the ones without a meaning are 0. -/
theorem rdnlReadsLinks : Obligations.RdnlReadsLinks := by
  refine ⟨onlyIndex_of_decodeFields fun _ _ => rfl, fun idx s => ?_⟩
  obtain ⟨hno, hrange, hok⟩ := nodeRead_answers (s := s) linksPayload (fun _ h => execRdnl_some (idx := idx) h)
    execRdnl_none
  refine ⟨hno, hrange, fun ht hlt => ⟨_, hok ht hlt, linksPayload_tag _, ?_⟩⟩
  obtain ⟨hsym, hl, hr, hzero⟩ := linksPayload_fields (s.nodeAt idx.toNat)
  have hunused := fun h => unusedFields_of_treeInv (s := s) h ht hlt
  rw [hsym, hl, hr, linksPayload_tag, ← Bool.not_eq_true, linksPayload_tag]
  exact ⟨rfl, rfl, rfl, hzero, fun h => (hunused h).1, fun h => (hunused h).2⟩

end Sys2Proof.Proofs
end

section
/-! The code table generator of 42_code_table.md: DERIVE, O24 to O27 (R130 to R132, R135), the two commands that read
an entry, O28 and O29 (R133, R134), and the digits of a code fed to the decoder, O37 (R131, R132; 44_decoder.md R150
to R152). -/

namespace Sys2Proof.Proofs

open Sys2Proof.Machine Sys2Proof.Safety Sys2Proof.Laws

/-! ### The answer of DERIVE -/

/-- The state a DERIVE on a tree leaves, its response offered. -/
def answeredDerive (s : State) : State := ({ s with code := s.derivedCode, cv := true } : State).answer .ok 0

theorem execDerive_of_tree {s : State} (ht : s.tv = true) : exec .derive s = .next (answeredDerive s) := by
  obtain ⟨hf, -⟩ | ⟨-, he⟩ := execDerive_cases s
  · simp [ht] at hf
  · exact he

theorem answeredDerive_entry (s : State) (b : Sym) :
    (answeredDerive s).entry b = cellRead codeUnlisted s.derivedCode b.toNat := rfl

/-- Settles O24: of the state only `CODE`, `CV` and the response are written. -/
theorem deriveWritesOnlyTable : Obligations.DeriveWritesOnlyTable := by
  refine ⟨noOperands_of_decodeFields fun _ _ => rfl, fun s => ⟨fun ht => ?_, fun ht => ?_⟩⟩
  · obtain ⟨-, he⟩ | ⟨ht', -⟩ := execDerive_cases s
    · rw [he]
      exact raise_failsWith .noTree s
    · simp [ht] at ht'
  · exact ⟨_, execDerive_of_tree ht, rfl⟩

/-- Settles O26: the one entry written is the code "0". -/
theorem deriveDegenerateTable : Obligations.DeriveDegenerateTable := fun s ht hn =>
  ⟨_, execDerive_of_tree ht, fun b => (answeredDerive_entry s b).trans (derivedCode_degenerate hn b)⟩

/-! ### Paths and the abstract tree (10_state.md R31) -/

theorem follow_append (s : State) (i : Nat) (p q : List Bool) :
    follow s i (p ++ q) = (follow s i p).bind fun j => follow s j q := by
  induction p generalizing i with
  | nil => rfl
  | cons d p ih =>
    rw [List.cons_append, follow, follow]
    split
    · exact ih _
    · rfl

/-- A path ends at the first leaf it meets. -/
theorem follow_leaf {s : State} {i j : Nat} {path : List Bool} (hg : (s.nodeAt i).tag = .leaf)
    (hf : follow s i path = some j) : path = [] ∧ i = j := by
  cases path with
  | nil => exact ⟨rfl, by simpa [follow] using hf⟩
  | cons d path => simp [follow, hg] at hf

/-- The node before the last digit of a path. -/
theorem exists_of_follow_snoc {s : State} {i j : Nat} {path : List Bool} {d : Bool}
    (hf : follow s i (path ++ [d]) = some j) :
    ∃ k, follow s i path = some k ∧ (s.nodeAt k).tag = .internal ∧ (childOf (s.nodeAt k) d).toNat = j := by
  rw [follow_append, Option.bind_eq_some_iff] at hf
  obtain ⟨k, hk, hlast⟩ := hf
  rw [follow] at hlast
  split at hlast
  · next hg => exact ⟨k, hk, hg, by simpa [follow] using hlast⟩
  · cases hlast

/-- `codes` lists the paths to the leaves, below the path there was. -/
theorem mem_codes_iff {s : State} {i : Nat} {tree : Tree} (h : TreeAt s i tree) (b : Sym) (p q : List Bool) :
    (b, q) ∈ tree.codes p ↔
      ∃ below j, q = p ++ below ∧ follow s i below = some j ∧ (s.nodeAt j).tag = .leaf ∧ (s.nodeAt j).sym = b := by
  induction h generalizing p with
  | leaf i hg =>
    rw [Tree.codes, List.mem_singleton, Prod.mk.injEq]
    constructor
    · rintro ⟨rfl, rfl⟩
      exact ⟨[], i, (List.append_nil q).symm, rfl, hg, rfl⟩
    · rintro ⟨below, j, rfl, hf, -, rfl⟩
      obtain ⟨rfl, rfl⟩ := follow_leaf hg hf
      exact ⟨rfl, List.append_nil p⟩
  | internal i l r hg hl hr ihl ihr =>
    rw [Tree.codes, List.mem_append, ihl, ihr]
    constructor
    · rintro (⟨below, j, rfl, hf, hj⟩ | ⟨below, j, rfl, hf, hj⟩)
      · exact ⟨false :: below, j, by simp, by simpa [follow, hg, childOf] using hf, hj⟩
      · exact ⟨true :: below, j, by simp, by simpa [follow, hg, childOf] using hf, hj⟩
    · rintro ⟨below, j, rfl, hf, hj⟩
      cases below with
      | nil =>
        obtain rfl : i = j := by simpa [follow] using hf
        simp [hg] at hj
      | cons d below =>
        simp only [follow, hg, if_true] at hf
        cases d with
        | false => exact .inl ⟨below, j, by simp, hf, hj⟩
        | true => exact .inr ⟨below, j, by simp, hf, hj⟩

/-! ### One path to each leaf -/

/-- Lists joined without a repetition share no element. -/
theorem eq_of_nodup_flatMap {α β : Type} {l : List α} {f : α → List β} (hl : (l.flatMap f).Nodup) {a b : α} {x : β}
    (ha : a ∈ l) (hb : b ∈ l) (hxa : x ∈ f a) (hxb : x ∈ f b) : a = b := by
  obtain ⟨-, hdisjoint⟩ := List.nodup_flatMap.1 hl
  have : Std.Symm (Function.onFun List.Disjoint f) := ⟨fun _ _ hd => hd.symm⟩
  by_contra hne
  exact hdisjoint.forall ha hb hne hxa hxb

section
variable {s : State} (h : TreeWalkInv s) (ht : s.tv = true)
include h ht

theorem exists_treeAt {i : Nat} (hi : i < s.nnodes) : ∃ tree, TreeAt s i tree := by
  induction i using Nat.strong_induction_on with
  | _ i ih =>
    cases hg : (s.nodeAt i).tag with
    | leaf => exact ⟨_, .leaf i hg⟩
    | internal =>
      have hl := child_lt h ht hi hg false
      have hr := child_lt h ht hi hg true
      obtain ⟨l, hl⟩ := ih _ hl (hl.trans hi)
      obtain ⟨r, hr⟩ := ih _ hr (hr.trans hi)
      exact ⟨_, .internal i l r hg hl hr⟩

theorem childLinks_nodup : (childLinks s).Nodup := by
  obtain ⟨-, htree, -⟩ := id h
  obtain ⟨-, -, -, -, hcount, -⟩ := htree ht
  refine List.nodup_iff_count_le_one.2 fun j => ?_
  by_cases hj : j < s.nnodes
  · rw [hcount j hj]
    split <;> omega
  · refine (List.count_eq_zero_of_not_mem fun hmem => hj ?_).le.trans zero_le_one
    obtain ⟨i, hi, hlink⟩ := List.mem_flatMap.1 hmem
    obtain ⟨hle, hlt⟩ := mem_drop_range.1 hi
    obtain ⟨-, -, hl, hr, -⟩ := internalEntry_of_le h ht hlt hle
    obtain rfl | rfl : j = (s.nodeAt i).l.toNat ∨ j = (s.nodeAt i).r.toNat := by simpa using hlink
    · exact hl.trans hlt
    · exact hr.trans hlt

/-- A node is the child of one node only, on one edge only (R30 (d)). -/
theorem parent_unique {i i' : Nat} {d d' : Bool} (hi : i < s.nnodes) (hi' : i' < s.nnodes)
    (hg : (s.nodeAt i).tag = .internal) (hg' : (s.nodeAt i').tag = .internal)
    (hc : (childOf (s.nodeAt i) d).toNat = (childOf (s.nodeAt i') d').toNat) : i = i' ∧ d = d' := by
  have hmem (k : Nat) (bit : Bool) :
      (childOf (s.nodeAt k) bit).toNat ∈ [(s.nodeAt k).l.toNat, (s.nodeAt k).r.toNat] := by
    cases bit <;> simp [childOf]
  have hle := nleaf_le_of_internal h ht hg
  obtain rfl := eq_of_nodup_flatMap (childLinks_nodup h ht) (mem_drop_range.2 ⟨hle, hi⟩)
    (mem_drop_range.2 ⟨nleaf_le_of_internal h ht hg', hi'⟩) (hmem i d) (hc ▸ hmem i' d')
  obtain ⟨-, -, -, -, hlr, -⟩ := internalEntry_of_le h ht hi hle
  refine ⟨rfl, ?_⟩
  have hc' := BitVec.eq_of_toNat_eq hc
  cases d <;> cases d'
  · rfl
  · exact absurd hc' hlr
  · exact absurd hc'.symm hlr
  · rfl

/-- No path leads back to the root (R30 (c)). -/
theorem eq_nil_of_follow_root {path : List Bool} (hf : follow s s.root.toNat path = some s.root.toNat) : path = [] := by
  have hnn := nnodes_eq_root_succ h ht
  obtain ⟨hdown, -⟩ := follow_bounds h ht (by omega) hf
  exact List.eq_nil_of_length_eq_zero (by omega)

/-- There is one path to a node: its parent and the edge from it are given (R131). -/
theorem follow_root_unique {j : Nat} {p q : List Bool} (hp : follow s s.root.toNat p = some j)
    (hq : follow s s.root.toNat q = some j) : p = q := by
  induction p using List.reverseRecOn generalizing q j with
  | nil =>
    obtain rfl : s.root.toNat = j := by simpa [follow] using hp
    exact (eq_nil_of_follow_root h ht hq).symm
  | append_singleton p d ih =>
    cases q using List.reverseRecOn with
    | nil =>
      obtain rfl : s.root.toNat = j := by simpa [follow] using hq
      exact eq_nil_of_follow_root h ht hp
    | append_singleton q e =>
      obtain ⟨k, hk, hg, rfl⟩ := exists_of_follow_snoc hp
      obtain ⟨k', hk', hg', hc⟩ := exists_of_follow_snoc hq
      obtain ⟨hlt, -⟩ := follow_root_bounds h ht hk
      obtain ⟨hlt', -⟩ := follow_root_bounds h ht hk'
      obtain ⟨rfl, rfl⟩ := parent_unique h ht hlt' hlt hg' hg hc
      rw [ih hk hk']

/-- A leaf is at most `NLEAF - 1` deep (R131). -/
theorem follow_root_length {j : Nat} {path : List Bool} (hf : follow s s.root.toNat path = some j) :
    path.length ≤ s.nleaf.toNat - 1 := by
  have hnn := nnodes_eq_root_succ h ht
  obtain ⟨h1, -, hroot⟩ := nleaf_bounds h ht
  obtain ⟨-, hlen⟩ := follow_bounds h ht (by omega) hf
  omega

/-- The leaves have distinct symbols (R30 (a)). -/
theorem sym_injective {i j : Nat} (hi : i < s.nleaf.toNat) (hj : j < s.nleaf.toNat)
    (hsym : (s.nodeAt i).sym = (s.nodeAt j).sym) : i = j := by
  obtain ⟨-, htree, -⟩ := h
  obtain ⟨-, -, hsorted, -⟩ := htree ht
  obtain hlt | heq | hgt := lt_trichotomy i j
  · exact absurd (congrArg BitVec.toNat hsym) (hsorted j hj i hlt).ne
  · exact heq
  · exact absurd (congrArg BitVec.toNat hsym) (hsorted i hi j hgt).ne'

/-- A code that begins another code is that code: a path ends at its leaf (R135 (a)). -/
theorem eq_of_isCodeOf_of_isPrefix {a b : Sym} {p q : List Bool} (ha : IsCodeOf s a p) (hb : IsCodeOf s b q)
    (hpq : p <+: q) : a = b := by
  obtain ⟨i, hi, rfl, hp⟩ := ha
  obtain ⟨j, hj, rfl, hq⟩ := hb
  split at hp
  · next hone =>
    obtain rfl : i = j := by omega
    rfl
  · next hone =>
    rw [if_neg hone] at hq
    obtain ⟨rest, rfl⟩ := hpq
    rw [follow_append, hp] at hq
    obtain ⟨hleaf, -⟩ := leafEntry_of_lt h ht hi
    obtain ⟨-, rfl⟩ := follow_leaf hleaf hq
    rfl

end

/-! ### The table of a tree with two leaves or more (R131) -/

section
variable {s : State} (h : TreeWalkInv s) (ht : s.tv = true) (hn : s.nleaf ≠ 1)
include h ht hn

theorem recordsLeaf_of_valid {b : Sym} (hv : (cellRead codeUnlisted s.derivedCode b.toNat).valid = true) :
    RecordsLeaf s b (cellRead codeUnlisted s.derivedCode b.toNat) := by
  obtain heq | hrec := derivedCode_entry h ht hn b
  · simp [heq] at hv
  · exact hrec

/-- The table holds the paths to the leaves and nothing else. -/
theorem derivedCode_valid_iff (b : Sym) (path : List Bool) :
    ((cellRead codeUnlisted s.derivedCode b.toNat).valid = true ∧
      codeDigits (cellRead codeUnlisted s.derivedCode b.toNat) = path) ↔
    ∃ j, follow s s.root.toNat path = some j ∧ (s.nodeAt j).tag = .leaf ∧ (s.nodeAt j).sym = b := by
  constructor
  · rintro ⟨hv, rfl⟩
    obtain ⟨path, j, hf, hg, hsym, hrec⟩ := recordsLeaf_of_valid h ht hn hv
    exact ⟨j, hrec.codeDigits_eq ▸ hf, hg, hsym⟩
  · have hlt {j : Nat} {p : List Bool} (hf : follow s s.root.toNat p = some j) (hg : (s.nodeAt j).tag = .leaf) :
        j < s.nleaf.toNat := lt_nleaf_of_leaf h ht (follow_root_bounds h ht hf).1 hg
    rintro ⟨j, hf, hg, rfl⟩
    have hv := derivedCode_covers h ht hn (hlt hf hg)
    obtain ⟨path', j', hf', hg', hsym, hrec⟩ := recordsLeaf_of_valid h ht hn hv
    obtain rfl := sym_injective h ht (hlt hf' hg') (hlt hf hg) hsym
    exact ⟨hv, hrec.codeDigits_eq.trans (follow_root_unique h ht hf' hf)⟩

end

/-- Settles O25: both sides say that the digits are the path to the one leaf of the byte. -/
theorem deriveRecordsRootPaths : Obligations.DeriveRecordsRootPaths := by
  intro s h ht hn
  have hnn := nnodes_eq_root_succ h ht
  obtain ⟨tree, htree⟩ := exists_treeAt h ht (i := s.root.toNat) (by omega)
  refine ⟨_, tree, execDerive_of_tree ht, htree, fun b path => ?_, fun b hv => ?_⟩
  · rw [answeredDerive_entry, derivedCode_valid_iff h ht hn, mem_codes_iff htree]
    simp
  · rw [answeredDerive_entry] at hv ⊢
    obtain ⟨path, j, hf, hg, -, hrec⟩ := recordsLeaf_of_valid h ht hn hv
    rw [hrec.len]
    exact ⟨List.length_pos_iff.2 (path_ne_nil h ht hn hf hg), follow_root_length h ht hf⟩

/-! ### The properties of the result (R135) -/

/-- The bytes with a valid entry are the symbols of the leaves, so there are as many of them (R135 (b)). -/
theorem length_valid_eq_nleaf {s t : State} (h : TreeWalkInv s) (ht : s.tv = true)
    (hvalid : ∀ b : Sym, (t.entry b).valid = true ↔ ∃ i < s.nleaf.toNat, (s.nodeAt i).sym = b) :
    ((List.range 256).filter (fun b => (t.codeAt b).valid)).length = s.nleaf.toNat := by
  have hperm : ((List.range 256).filter (fun b => (t.codeAt b).valid)).Perm
      ((List.range s.nleaf.toNat).map fun i => (s.nodeAt i).sym.toNat) := by
    refine (List.perm_ext_iff_of_nodup (List.nodup_range.filter _) (List.Nodup.map_on ?_ List.nodup_range)).2 fun b => ?_
    · intro i hi j hj hsym
      exact sym_injective h ht (List.mem_range.1 hi) (List.mem_range.1 hj) (BitVec.eq_of_toNat_eq hsym)
    · have hmem (b : Sym) : (t.codeAt b.toNat).valid = true ↔ ∃ i < s.nleaf.toNat, (s.nodeAt i).sym.toNat = b.toNat := by
        simpa only [BitVec.toNat_inj, entry_def] using hvalid b
      simp only [List.mem_filter, List.mem_map, List.mem_range]
      constructor
      · rintro ⟨hlt, hv⟩
        rw [← toNat_ofNat_of_lt (w := 8) hlt] at hv ⊢
        exact (hmem _).1 hv
      · rintro ⟨i, hi, rfl⟩
        exact ⟨BitVec.isLt _, (hmem _).2 ⟨i, hi, rfl⟩⟩
  simpa using hperm.length_eq

/-- The table reads the tree only (R135 (c)). -/
theorem derivedCode_eq_of_sameTree {s s' : State} (h : TreeWalkInv s) (ht : s.tv = true) (hnleaf : s'.nleaf = s.nleaf)
    (hroot : s'.root = s.root) (hnodes : ∀ i < s.nnodes, s'.nodeAt i = s.nodeAt i) :
    s'.derivedCode = s.derivedCode := by
  rw [← derivedCode_congr h ht (nodes := s'.node) hnodes]
  simp only [State.derivedCode, nodeAt_def, hnleaf, hroot]

/-- Settles O27: the entries are those of the tree, and its paths end at leaves. -/
theorem derivedTableIsPrefixCode : Obligations.DerivedTableIsPrefixCode := by
  intro s h ht
  have hentry (b : Sym) : EntryOfTree s b ((answeredDerive s).entry b) := derivedCode_entryOfTree h ht b
  have hvalid (b : Sym) : ((answeredDerive s).entry b).valid = true ↔ ∃ i < s.nleaf.toNat, (s.nodeAt i).sym = b := by
    obtain ⟨-, hiff, -⟩ := hentry b
    exact hiff
  refine ⟨_, execDerive_of_tree ht, fun a b ha hb hne hpre => ?_,
    length_valid_eq_nleaf h ht hvalid, hvalid,
    fun s' ht' hnleaf hroot hnodes => ⟨_, execDerive_of_tree ht', fun b => ?_⟩, fun b hv => ?_⟩
  · obtain ⟨-, -, hcode⟩ := hentry a
    obtain ⟨-, -, hcode'⟩ := hentry b
    exact hne (eq_of_isCodeOf_of_isPrefix h ht (hcode ha) (hcode' hb) hpre)
  · rw [answeredDerive_entry, answeredDerive_entry, derivedCode_eq_of_sameTree h ht hnleaf hroot hnodes]
  · obtain ⟨⟨-, hform⟩, -⟩ := hentry b
    obtain ⟨hpos, hbeyond⟩ := hform hv
    exact ⟨hpos, Nat.le_of_lt_succ (BitVec.isLt _), hbeyond⟩

/-! ### Reading an entry (R133, R134) -/

theorem entryForm_of_codeInv {s : State} (hc : CodeInv s) (sym : Sym) : EntryForm (s.entry sym) := by
  obtain ⟨hform, -⟩ := hc
  exact hform sym

/-- While `CV = 0`, and for a byte with no code, the entry is the unlisted one (10_state.md R25). -/
theorem entry_eq_codeUnlisted {s : State} {sym : Sym} (hc : CodeInv s)
    (hempty : s.cv = false ∨ (s.entry sym).valid = false) : s.entry sym = codeUnlisted := by
  obtain ⟨hform, hcv, -⟩ := hc
  obtain ⟨hinvalid, -⟩ := hform sym
  exact hempty.elim (fun h => hcv h sym) hinvalid

/-- The response of RDCL written out (30_encoding.md R83). -/
theorem codeLenPayload_setWidth (e : CodeEntry) :
    (codeLenPayload e).setWidth 48 = (0 : BitVec 39) ++ e.len ++ BitVec.ofBool e.valid := rfl

/-- Settles O28: the payload is the entry's length and validity, of which the unlisted entry has none. -/
theorem rdclReadsLength : Obligations.RdclReadsLength := by
  refine ⟨onlySym_of_decodeFields fun _ _ => rfl, fun sym s => ⟨_, respond_eq _ _, ?_, ?_, ?_, fun hc hempty => ?_⟩⟩
  · rw [codeLenPayload_setWidth, BitVec.getLsbD_append]
    simp
  · rw [codeLenPayload_setWidth]
    exact extractLsb'_append_field _ _ _
  · rw [codeLenPayload_setWidth, BitVec.extractLsb'_append_eq_of_le (by decide),
      BitVec.extractLsb'_append_eq_of_le (by decide)]
    rfl
  · rw [entry_eq_codeUnlisted hc hempty]
    decide

/-- The response of RDCB: 32 digits, zero-extended (30_encoding.md R83). -/
theorem chunkPayload_setWidth (e : CodeEntry) (k : Chunk) :
    (chunkPayload e k).setWidth 48 = (e.bits.extractLsb' (32 * k.toNat) 32).setWidth 48 := by
  rw [chunkPayload, BitVec.setWidth_setWidth (by decide)]

theorem chunkPayload_getLsbD (e : CodeEntry) (k : Chunk) {j : Nat} (hj : j < 32) :
    ((chunkPayload e k).setWidth 48).getLsbD j = e.bits.getLsbD (32 * k.toNat + j) := by
  have hj' : j < 48 := by omega
  simp [chunkPayload_setWidth, hj, hj']

/-- Digits at positions `LEN` and above are 0, every digit of an invalid entry too (10_state.md R25). -/
theorem getLsbD_of_len_le {e : CodeEntry} (h : EntryForm e) {k : Nat} (hk : e.len.toNat ≤ k) :
    e.bits.getLsbD k = false := by
  obtain ⟨hinvalid, hvalid⟩ := h
  cases hv : e.valid with
  | false =>
    rw [hinvalid hv]
    exact BitVec.getLsbD_zero
  | true =>
    obtain ⟨-, hbeyond⟩ := hvalid hv
    obtain hlt | hge := lt_or_ge k 256
    · exact hbeyond k hlt hk
    · exact BitVec.getLsbD_of_ge _ _ hge

/-- Settles O29: the payload is a chunk of the digits; the last digit of all is beyond every length. -/
theorem rdcbReadsChunk : Obligations.RdcbReadsChunk := by
  refine ⟨fun sym k => ?_, fun sym d s hd => ?_, fun sym k s => ⟨_, respond_eq _ _, ?_, ?_, ?_, ?_, ?_⟩⟩
  · have hdec : decodeFields 0x15 sym (k.setWidth 32) = ifReservedZero 0x15
        ((k.setWidth 32).extractLsb' 3 29 == 0) (.rdcb sym ((k.setWidth 32).extractLsb' 0 3)) := rfl
    rw [decode_join, hdec, extractLsb'_setWidth_self (by decide), extractLsb'_setWidth_high]
    rfl
  · refine acceptWord_reserved (i := .rdcb sym (d.extractLsb' 0 3)) rfl (beq_false_of_ne fun hzero => ?_) s
    have hlt := lt_of_extractLsb'_eq_zero rfl hzero
    omega
  · rw [chunkPayload_setWidth]
    exact extractLsb'_setWidth_high _ _
  · exact fun j hj => chunkPayload_getLsbD _ k hj
  · intro hc hv
    rw [chunkPayload_setWidth, entry_eq_codeUnlisted hc (.inr hv)]
    simp [codeUnlisted]
  · intro hc j hj hlen
    rw [chunkPayload_getLsbD _ k hj]
    exact getLsbD_of_len_le (entryForm_of_codeInv hc sym) hlen
  · rintro hc rfl
    rw [chunkPayload_getLsbD _ _ (by decide)]
    exact getLsbD_of_len_le (entryForm_of_codeInv hc sym) (Nat.le_of_lt_succ (BitVec.isLt _))

/-! ### The digits of a code, fed to the decoder -/

theorem execDbit_degenerate {s : State} (ht : s.tv = true) (hn : s.nleaf = 1) (bit : Bool) :
    exec (.dbit bit) s = respond (emitPayload (s.nodeAt 0).sym) s := by
  simpa only [ht, hn, reduceCtorEq, ne_eq, not_true_eq_false, true_and, false_and, false_or, or_false]
    using execDbit_cases bit s

/-- Serving a command that succeeds and leaves idle ports but for its response. -/
theorem serve_respond {i : Instr} {s u : State} {p : Payload} (hidle : u.cmdReady = true) (h : exec i s = respond p u) :
    serve (encode i) s = some (u, rspWord .ok p, []) := by
  obtain ⟨heo, hrsp⟩ := (cmdReady_iff u).1 hidle
  rw [serve_encode h rfl]
  obtain ⟨⟩ := u
  subst heo hrsp
  rfl

theorem emitted_emitPayload (sym : Sym) : emitted (rspWord .ok (emitPayload sym)) = [sym] := by
  have hword : rspWord .ok (emitPayload sym) = (0 : BitVec 39) ++ (1 : BitVec 1) ++ sym := by
    rw [rspWord_ok]
    rfl
  have hemit : (rspWord .ok (emitPayload sym)).getLsbD 8 = true := by
    rw [hword, BitVec.getLsbD_append, BitVec.getLsbD_append]
    rfl
  rw [emitted, if_pos hemit, hword, BitVec.extractLsb'_append_eq_of_add_le le_rfl, BitVec.extractLsb'_eq_self]

theorem decodedBytes_cons (r : RspWord) (bits : List Bool) (replies : List (RspWord × List Bool)) :
    decodedBytes ((r, bits) :: replies) = emitted r ++ decodedBytes replies := rfl

/-- One command that emits a symbol. -/
theorem serveAll_singleton_emits {i : Instr} {s u : State} {sym : Sym} (hidle : u.cmdReady = true)
    (h : exec i s = respond (emitPayload sym) u) :
    ∃ replies, serveAll [i] s = some (u, replies) ∧ AllOk replies ∧ decodedBytes replies = [sym] := by
  refine ⟨_, serveAll_cons (serve_respond hidle h) rfl, allOk_cons (statusOf_rspWord _ _) (List.forall_mem_nil _), ?_⟩
  rw [decodedBytes_cons, emitted_emitPayload]
  rfl

/-- From the internal node the walk stands on, the digits of a path to a leaf emit the leaf's symbol and nothing else,
and put the walk back at the root (44_decoder.md R150, R151). -/
theorem serveAll_dbits {u : State} (ht : u.tv = true) (hn : u.nleaf ≠ 1) (hidle : u.cmdReady = true) {path : List Bool}
    {j : Nat} (hhere : (u.nodeAt u.here.toNat).tag = .internal) (hf : follow u u.here.toNat path = some j)
    (hleaf : (u.nodeAt j).tag = .leaf) :
    ∃ replies, serveAll (path.map Instr.dbit) u = some (u.walkToRoot, replies) ∧ AllOk replies ∧
      decodedBytes replies = [(u.nodeAt j).sym] := by
  induction path generalizing u with
  | nil =>
    obtain rfl : u.here.toNat = j := by simpa [follow] using hf
    simp [hleaf] at hhere
  | cons d path ih =>
    rw [follow, if_pos hhere] at hf
    change follow u (nextNode d u).toNat path = some j at hf
    cases hg : (u.nodeAt (nextNode d u).toNat).tag with
    | leaf =>
      obtain ⟨rfl, rfl⟩ := follow_leaf hg hf
      exact serveAll_singleton_emits (u := u.walkToRoot) hidle (execDbit_leaf ht hn hg)
    | internal =>
      obtain ⟨replies, hserve, hok, hbytes⟩ := ih (u := u.walkTo (nextNode d u)) ht hn hidle hg
        ((follow_congr (s := u) (t := u.walkTo (nextNode d u)) rfl _ path).trans hf) hleaf
      have hfirst := serve_respond (u := u.walkTo (nextNode d u)) hidle (execDbit_internal ht hn hg)
      refine ⟨_, serveAll_cons hfirst hserve, allOk_cons (statusOf_rspWord _ _) hok, ?_⟩
      rw [decodedBytes_cons, hbytes]
      rfl

/-- Settles O37: a code is the path to its leaf, or the one digit of the degenerate tree. -/
theorem decodingCodeEmitsItsSymbol : Obligations.DecodingCodeEmitsItsSymbol := by
  intro s sym h hc hidle hcv hmid hv
  obtain ⟨⟨hoff, -, hcur, -⟩, -, -⟩ := id h
  have ht : s.tv = true := by
    by_contra hf
    obtain ⟨-, -, -, -, hcv'⟩ := hoff (by simpa using hf)
    simp [hcv] at hcv'
  obtain ⟨-, -, htable⟩ := hc
  obtain ⟨-, hcode⟩ := htable hcv sym
  obtain ⟨i, hi, rfl, hdigits⟩ := hcode hv
  split at hdigits
  · next hone =>
    obtain rfl : i = 0 := by omega
    rw [hdigits]
    exact serveAll_singleton_emits hidle (execDbit_degenerate ht (BitVec.eq_of_toNat_eq hone) false)
  · next hone =>
    have hn : s.nleaf ≠ 1 := fun e => hone (congrArg BitVec.toNat e)
    have hroot : s.walkToRoot = s := by rw [State.walkToRoot, ← hmid, ← hcur hmid]
    have hhere : s.here = s.root := if_neg (by simp [hmid])
    obtain ⟨hleaf, -⟩ := leafEntry_of_lt h ht hi
    rw [← hhere] at hdigits
    obtain ⟨-, hint⟩ := here_internal h ht hn
    simpa only [hroot] using serveAll_dbits ht hn hidle hint hdigits hleaf

end Sys2Proof.Proofs
end

section
/-! The bitstream encoder of 43_encoder.md: ENC, O30 (R140), the codes of a text, O31 (R142), and the order in which
outputs leave the block, O57 (R141). -/

namespace Sys2Proof.Proofs

open Sys2Proof.Machine Sys2Proof.Safety Sys2Proof.Laws

/-! ### One command -/

@[simp] theorem codeDigits_length (e : CodeEntry) : (codeDigits e).length = e.len.toNat := by simp [codeDigits]

theorem codeDigits_getElem? (e : CodeEntry) {k : Nat} (hk : k < e.len.toNat) :
    (codeDigits e)[k]? = some (e.bits.getLsbD k) := by simp [codeDigits, hk]

theorem execEnc_of_valid {sym : Sym} {s : State} (h : (s.entry sym).valid = true) :
    exec (.enc sym) s = respond (lenPayload (s.entry sym).len) (s.emitEo (codeDigits (s.entry sym))) := by
  obtain ⟨hinvalid, -⟩ | ⟨-, he⟩ := execEnc_cases sym s
  · simp [h] at hinvalid
  · exact he

theorem execEnc_failsWith_unknownSymbol {sym : Sym} {s : State} (h : (s.entry sym).valid = false) :
    FailsWith 2 (exec (.enc sym) s) s := by
  obtain ⟨-, he⟩ | ⟨hvalid, -⟩ := execEnc_cases sym s
  · rw [he]
    exact raise_failsWith .unknownSymbol s
  · simp [h] at hvalid

/-- Settles O30: what is emitted is the entry's digits; while the table is empty every entry is invalid. -/
theorem encEmitsCode : Obligations.EncEmitsCode := by
  refine ⟨onlySym_of_decodeFields fun _ _ => rfl, fun sym s =>
    ⟨fun hv => ⟨codeDigits (s.entry sym), ?_, codeDigits_length _, fun _ hk => codeDigits_getElem? _ hk⟩,
      execEnc_failsWith_unknownSymbol, fun hc hcv => execEnc_failsWith_unknownSymbol ?_⟩⟩
  · rw [execEnc_of_valid hv, respond_eq, lenPayload, BitVec.setWidth_setWidth (by decide)]
    rfl
  · rw [entry_eq_codeUnlisted hc (.inl hcv)]
    rfl

/-! ### A text -/

/-- On idle ports an ENC of a byte with a code leaves the state as it was. -/
theorem serve_enc {sym : Sym} {s : State} (hidle : s.cmdReady = true) (hv : (s.entry sym).valid = true) :
    serve (encode (.enc sym)) s =
      some (s, rspWord .ok (lenPayload (s.entry sym).len), codeDigits (s.entry sym)) := by
  obtain ⟨heo, hrsp⟩ := (cmdReady_iff s).1 hidle
  rw [serve_encode (execEnc_of_valid hv) rfl]
  obtain ⟨⟩ := s
  subst heo hrsp
  rfl

/-- The payload of ENC is the number of EO bits it emits (30_encoding.md R83). -/
theorem lenPayload_toNat (e : CodeEntry) : (lenPayload e.len).toNat = (codeDigits e).length := by
  rw [codeDigits_length, lenPayload, BitVec.toNat_setWidth_of_le (by decide)]

theorem eoBits_cons (r : RspWord) (bits : List Bool) (replies : List (RspWord × List Bool)) :
    eoBits ((r, bits) :: replies) = bits ++ eoBits replies := rfl

/-- Settles O31, by induction on the text: each ENC leaves the state in which the next one finds its entry. -/
theorem encsConcatenatesCodes : Obligations.EncsConcatenatesCodes := by
  intro text s hidle hv
  induction text with
  | nil => exact ⟨[], rfl, List.forall_mem_nil _, rfl, rfl⟩
  | cons sym text ih =>
    obtain ⟨hsym, htext⟩ := List.forall_mem_cons.1 hv
    obtain ⟨replies, hserve, hok, hbits, hsum⟩ := ih htext
    refine ⟨_, serveAll_cons (serve_enc hidle hsym) hserve, allOk_cons (statusOf_rspWord _ _) hok, ?_, ?_⟩
    · rw [eoBits_cons, hbits, List.flatMap_cons]
    · rw [eoBits_cons, List.length_append, hsum, List.map_cons, List.sum_cons, payloadOf_rspWord, lenPayload_toNat]

/-! ### The output ports (30_encoding.md R91) -/

/-- Settles O57: a transfer that happens moves the first output that waits, and one that does not moves nothing. -/
theorem transfersKeepOutputOrder : Obligations.TransfersKeepOutputOrder := by
  rintro s t rest (hh | hh) hstep
  · obtain ⟨-, hs⟩ | ⟨b, bits, heo, hs⟩ := step_takeEo hh <;> cases hs.symm.trans hstep
    · rfl
    · simp [waiting, heo]
  · obtain ⟨-, hs⟩ | ⟨r, heo, hrsp, hs⟩ := step_takeRsp hh <;> cases hs.symm.trans hstep
    · rfl
    · simp [waiting, heo, hrsp]

end Sys2Proof.Proofs
end

section
/-! The bitstream decoder of 44_decoder.md: DBIT, O33 and O34 (R150 to R152), DEND, O35 (R153), how long the decoder
can go without a symbol, O36 (R151), and the round trip, O38 (R154). -/

namespace Sys2Proof.Proofs

open Sys2Proof.Machine Sys2Proof.Safety Sys2Proof.Laws

/-! ### DEND -/

theorem execDend_noTree {s : State} (ht : s.tv = false) : exec .dend s = raise .noTree s := by
  simpa only [ht, reduceCtorEq, true_and, false_and, or_false] using execDend_cases s

theorem execDend_at_root {s : State} (ht : s.tv = true) (hm : s.mid = false) : exec .dend s = respond 0 s := by
  simpa only [ht, hm, reduceCtorEq, true_and, false_and, false_or] using execDend_cases s

theorem execDend_mid_walk {s : State} (ht : s.tv = true) (hm : s.mid = true) :
    exec .dend s = raise .truncatedStream s.walkToRoot := by
  simpa only [ht, hm, reduceCtorEq, true_and, false_and, false_or, or_false] using execDend_cases s

/-- Settles O35: one clause for each branch of DEND. -/
theorem dendChecksWalkAtRoot : Obligations.DendChecksWalkAtRoot := by
  refine ⟨noOperands_of_decodeFields fun _ _ => rfl, fun s => ⟨fun ht => ?_, fun ht hm => ?_, fun ht hm => ?_⟩⟩
  · rw [execDend_noTree ht]
    exact raise_failsWith .noTree s
  · rw [execDend_mid_walk ht hm]
    exact raise_failsWith .truncatedStream s.walkToRoot
  · rw [execDend_at_root ht hm, respond_eq]
    rfl

/-! ### One DBIT -/

theorem execDbit_noTree {s : State} (ht : s.tv = false) (bit : Bool) : exec (.dbit bit) s = raise .noTree s := by
  simpa only [ht, reduceCtorEq, true_and, false_and, or_false] using execDbit_cases bit s

/-- A field `D` with a bit set above its operand, or a field `A` that is not 0 (30_encoding.md R85). -/
theorem reserved_low_eq_false {a : BitVec 8} {d : BitVec 32} {k r : Nat} (hw : k + r = 32)
    (h : a ≠ 0 ∨ 2 ^ k ≤ d.toNat) : (a == 0 && d.extractLsb' k r == 0) = false := by
  refine Bool.eq_false_iff.2 fun hzero => ?_
  obtain ⟨ha, hd⟩ : a = 0 ∧ d.extractLsb' k r = 0 := by simpa using hzero
  exact h.elim (absurd ha) (not_le.2 (lt_of_extractLsb'_eq_zero hw hd))

/-- The response that emits a symbol: the number `0x100 + SYM` (30_encoding.md R83). -/
theorem emitPayload_setWidth (sym : Sym) : (emitPayload sym).setWidth 48 = (1 : BitVec 40) ++ sym := rfl

/-- Settles O33: the node moved to decides between the two equations of a step of the walk. -/
theorem dbitWalksOneEdge : Obligations.DbitWalksOneEdge := by
  refine ⟨⟨fun bit => decodeInvertsEncode (.dbit bit), fun a d s h => ?_⟩, fun bit s => ⟨fun ht => ?_, ?_⟩⟩
  · exact acceptWord_reserved (i := .dbit (d.getLsbD 0)) rfl (reserved_low_eq_false (k := 1) rfl h) s
  · rw [execDbit_noTree ht]
    exact raise_failsWith .noTree s
  · rintro here child ht hn rfl hchild
    obtain rfl : child = nextNode bit s := by rw [hchild]; cases bit <;> rfl
    refine ⟨fun hg => ?_, fun hg => ?_, fun h => (here_internal h ht hn).2⟩
    · rw [execDbit_leaf ht hn hg, respond_eq, emitPayload_setWidth]
      rfl
    · rw [execDbit_internal ht hn hg, respond_eq]
      rfl

/-- The degenerate tree has no walk (10_state.md R29). -/
theorem mid_eq_false_of_degenerate {s : State} (h : FlagInv s) (hn : s.nleaf = 1) : s.mid = false := by
  obtain ⟨-, -, -, hmid, -⟩ := h
  by_contra hm
  obtain ⟨-, hle⟩ := hmid (by simpa using hm)
  simp [hn] at hle

/-- Settles O34: the bit is not read, and with no walk DEND finds the walk at the root. -/
theorem degenerateTreeEmitsOnEveryBit : Obligations.DegenerateTreeEmitsOnEveryBit := by
  refine fun s bit ht hn => ⟨?_, fun h => ⟨mid_eq_false_of_degenerate h hn, ?_⟩⟩
  · rw [execDbit_degenerate ht hn, respond_eq, emitPayload_setWidth]
  · rw [execDend_at_root ht (mid_eq_false_of_degenerate h hn), respond_eq]
    rfl

/-! ### Runs of commands -/

/-- Every run of commands is answered to its end (00_scope.md R6). -/
theorem exists_serveAll (cmds : List Instr) (s : State) : ∃ t replies, serveAll cmds s = some (t, replies) := by
  induction cmds generalizing s with
  | nil => exact ⟨s, [], rfl⟩
  | cons i rest ih =>
    obtain ⟨u, st, p, hexec, -⟩ := exec_answersFrom i s
    obtain ⟨t, replies, hrest⟩ := ih { u.answer st p with eoPort := [], rspPort := none }
    exact ⟨t, _, serveAll_cons (serve_encode hexec rfl) hrest⟩

/-- The inversion of `serveAll_cons`. -/
theorem exists_of_serveAll_cons {i : Instr} {rest : List Instr} {s t : State} {replies : List (RspWord × List Bool)}
    (h : serveAll (i :: rest) s = some (t, replies)) :
    ∃ u r bits more, serve (encode i) s = some (u, r, bits) ∧ serveAll rest u = some (t, more) ∧
      replies = (r, bits) :: more := by
  obtain ⟨⟨u, r, bits⟩, hserve, hmap⟩ := Option.bind_eq_some_iff.1 h
  obtain ⟨⟨t', more⟩, hrest, heq⟩ := Option.map_eq_some_iff.1 hmap
  cases heq
  exact ⟨u, r, bits, more, hserve, hrest, rfl⟩

theorem serveAll_append {xs ys : List Instr} {s t u : State} {rx ry : List (RspWord × List Bool)}
    (hx : serveAll xs s = some (t, rx)) (hy : serveAll ys t = some (u, ry)) :
    serveAll (xs ++ ys) s = some (u, rx ++ ry) := by
  induction xs generalizing s rx with
  | nil =>
    cases hx
    exact hy
  | cons i xs ih =>
    obtain ⟨v, r, bits, more, hserve, hrest, rfl⟩ := exists_of_serveAll_cons hx
    exact serveAll_cons hserve (ih hrest)

theorem allOk_append {rx ry : List (RspWord × List Bool)} (hx : AllOk rx) (hy : AllOk ry) : AllOk (rx ++ ry) :=
  List.forall_mem_append.2 ⟨hx, hy⟩

theorem eoBits_append (rx ry : List (RspWord × List Bool)) : eoBits (rx ++ ry) = eoBits rx ++ eoBits ry :=
  List.flatMap_append

theorem decodedBytes_append (rx ry : List (RspWord × List Bool)) :
    decodedBytes (rx ++ ry) = decodedBytes rx ++ decodedBytes ry := List.flatMap_append

/-- Only ENC emits EO bits (43_encoder.md R141). -/
theorem eoBits_eq_nil {cmds : List Instr} {s t : State} {replies : List (RspWord × List Bool)}
    (hno : ∀ i ∈ cmds, ∀ sym, i ≠ .enc sym) (hidle : s.eoPort = []) (h : serveAll cmds s = some (t, replies)) :
    eoBits replies = [] := by
  induction cmds generalizing s replies with
  | nil =>
    cases h
    rfl
  | cons i rest ih =>
    obtain ⟨hi, hno⟩ := List.forall_mem_cons.1 hno
    obtain ⟨u, r, bits, more, hserve, hrest, rfl⟩ := exists_of_serveAll_cons h
    obtain ⟨v, hexec, -, rfl, rfl⟩ := serve_eq_some hserve
    rw [acceptWord_legal (decodeInvertsEncode i)] at hexec
    obtain ⟨-, -, -, -, -, -, hkept, -⟩ := onlyNamedCommandsWriteState i s v hexec
    rw [eoBits_cons, hkept hi, hidle, ih hno rfl hrest]
    rfl

/-! ### A symbol after at most `NLEAF - 1` bits (R151) -/

/-- The node a DBIT moves to is smaller than the one the walk stands on (10_state.md R30 (c)). -/
theorem nextNode_lt_here {s : State} (h : TreeWalkInv s) (ht : s.tv = true) (hn : s.nleaf ≠ 1) (bit : Bool) :
    (nextNode bit s).toNat < s.here.toNat := by
  obtain ⟨hlt, hg⟩ := here_internal h ht hn
  exact child_lt h ht hlt hg bit

theorem here_lt_two_mul_nleaf {s : State} (h : TreeWalkInv s) (ht : s.tv = true) (hn : s.nleaf ≠ 1) :
    s.here.toNat + 1 ≤ 2 * s.nleaf.toNat - 1 := by
  obtain ⟨hlt, -⟩ := here_internal h ht hn
  rwa [nnodes_def] at hlt

/-- With at least as many bits as there are internal nodes up to the one the walk stands on, a leaf is met. -/
theorem serveAll_dbits_emit {s : State} {bits : List Bool} (h : TreeWalkInv s) (ht : s.tv = true) (hn : s.nleaf ≠ 1)
    (hidle : s.cmdReady = true) (hlen : s.here.toNat + 1 ≤ s.nleaf.toNat + bits.length) :
    ∃ t replies, serveAll (bits.map Instr.dbit) s = some (t, replies) ∧ decodedBytes replies ≠ [] := by
  induction bits generalizing s with
  | nil =>
    obtain ⟨-, hg⟩ := here_internal h ht hn
    exact absurd hlen (not_le.2 (Nat.lt_succ_of_le (nleaf_le_of_internal h ht hg)))
  | cons bit bits ih =>
    cases hg : (s.nodeAt (nextNode bit s).toNat).tag with
    | leaf =>
      have hfirst := serve_respond (u := s.walkToRoot) hidle (execDbit_leaf ht hn hg)
      obtain ⟨t, replies, hserve⟩ := exists_serveAll (bits.map Instr.dbit) s.walkToRoot
      refine ⟨t, _, serveAll_cons hfirst hserve, ?_⟩
      rw [decodedBytes_cons, emitted_emitPayload]
      exact List.cons_ne_nil _ _
    | internal =>
      have hfirst := serve_respond (u := s.walkTo (nextNode bit s)) hidle (execDbit_internal ht hn hg)
      have hsmaller : (nextNode bit s).toNat + 1 ≤ s.nleaf.toNat + bits.length := by
        have hlt := nextNode_lt_here h ht hn bit
        rw [List.length_cons] at hlen
        omega
      obtain ⟨t, replies, hserve, hbytes⟩ :=
        ih (s := s.walkTo (nextNode bit s)) ((TreeEffect.walks bit ht hn hg).treeWalkInv h) ht hn hidle hsmaller
      refine ⟨t, _, serveAll_cons hfirst hserve, ?_⟩
      rw [decodedBytes_cons]
      exact List.append_ne_nil_of_right_ne_nil _ hbytes

/-- Settles O36: the tree has `NLEAF - 1` internal nodes, and every bit that emits nothing leads to a smaller one. -/
theorem symbolWithinNleafBits : Obligations.SymbolWithinNleafBits := by
  intro s bits h hidle ht h2 hlen
  have hn : s.nleaf ≠ 1 := fun e => by simp [e] at h2
  have hhere := here_lt_two_mul_nleaf h ht hn
  exact serveAll_dbits_emit h ht hn hidle (by omega)

/-! ### The round trip (R154) -/

/-- A state in which the text can be encoded and decoded: idle ports, a tree with its table, no walk, and a code for
every byte of the text. -/
structure CodesText (text : List Sym) (s : State) : Prop where
  idle : s.cmdReady = true
  tree : TreeWalkInv s
  table : CodeInv s
  tv : s.tv = true
  cv : s.cv = true
  mid : s.mid = false
  valid : ∀ c ∈ text, (s.entry c).valid = true

/-- The codes of a text, fed to the decoder, emit the text, by induction on it: each code leaves the walk at the root for
the next one. -/
theorem serveAll_codes {text : List Sym} {s : State} (h : CodesText text s) :
    ∃ replies, serveAll ((text.flatMap fun c => codeDigits (s.entry c)).map Instr.dbit) s = some (s, replies) ∧
      AllOk replies ∧ decodedBytes replies = text := by
  obtain ⟨hidle, htree, htable, -, hcv, hmid, hvalid⟩ := h
  induction text with
  | nil => exact ⟨[], rfl, List.forall_mem_nil _, rfl⟩
  | cons sym text ih =>
    obtain ⟨hsym, htext⟩ := List.forall_mem_cons.1 hvalid
    obtain ⟨first, hfirst, hok, hbyte⟩ := decodingCodeEmitsItsSymbol s sym htree htable hidle hcv hmid hsym
    obtain ⟨rest, hrest, hok', hbytes⟩ := ih htext
    refine ⟨first ++ rest, ?_, allOk_append hok hok', by rw [decodedBytes_append, hbyte, hbytes]; rfl⟩
    rw [List.flatMap_cons, List.map_append]
    exact serveAll_append hfirst hrest

/-- The stream of a text, decoded and ended (R155). -/
theorem serveAll_decsCmds {text : List Sym} {s : State} (h : CodesText text s) :
    ∃ replies, serveAll (decsCmds (text.flatMap fun c => codeDigits (s.entry c))) s = some (s, replies) ∧
      AllOk replies ∧ decodedBytes replies = text := by
  obtain ⟨replies, hserve, hok, hbytes⟩ := serveAll_codes h
  have hend : serveAll [.dend] s = some (s, [(rspWord .ok 0, [])]) :=
    serveAll_cons (serve_respond h.idle (execDend_at_root h.tv h.mid)) rfl
  refine ⟨_, serveAll_append hserve hend, allOk_append hok (allOk_cons (by decide) (List.forall_mem_nil _)), ?_⟩
  rw [decodedBytes_append, hbytes]
  exact List.append_nil text

/-- The state CLR leaves (45_control.md R161). -/
def clearedState (s : State) : State := { s.clearFreq.releaseCode.releaseTree.walkToRoot with lastErr := 0 }

theorem clearedState_treeWalkInv (s : State) : TreeWalkInv (clearedState s) :=
  ⟨reset_flagInv, fun ht => by simp [clearedState] at ht, fun hm => by simp [clearedState] at hm⟩

/-- The state BUILD and DERIVE leave. -/
def tableState (s : State) : State := { builtState s with code := (builtState s).derivedCode, cv := true }

/-- A byte of the map is the symbol of a leaf (41_tree_builder.md R111). -/
theorem exists_leaf_of_count_ne_zero {s : State} {b : Sym} (hb : s.count b ≠ 0) :
    ∃ i < (builtState s).nleaf.toNat, ((builtState s).nodeAt i).sym = b := by
  obtain ⟨i, hi, hpresent⟩ := List.mem_iff_getElem.1 ((toNat_mem_present s b).2 hb)
  refine ⟨i, by rwa [builtState_nleaf], ?_⟩
  rw [builtState_nodeAt_leaf (present_ne_nil ⟨b, hb⟩) hi, hpresent]
  exact BitVec.eq_of_toNat_eq (toNat_ofNat_of_lt b.isLt)

/-- BUILD and DERIVE on a map with every byte of the text. -/
theorem tableState_codesText {text : List Sym} {s : State} (hinv : TreeWalkInv s) (hidle : s.cmdReady = true)
    (hne : ∃ b : Sym, s.count b ≠ 0) (hcount : ∀ c ∈ text, s.count c ≠ 0) : CodesText text (tableState s) := by
  have hbuilt := (TreeEffect.builds (present_ne_nil hne)).treeWalkInv hinv
  have htable : CodeInv (tableState s) := derive_codeInv hbuilt rfl
  obtain ⟨-, -, hentries⟩ := id htable
  refine ⟨hidle, (TreeEffect.derives rfl).treeWalkInv hbuilt, htable, rfl, rfl, rfl, fun c hc => ?_⟩
  obtain ⟨hvalid, -⟩ := hentries rfl c
  exact hvalid.2 (exists_leaf_of_count_ne_zero (hcount c hc))

/-- Counting, building and deriving from any state with idle ports: the map is that of the text alone. -/
theorem serveAll_mktreeCmds {text : List Sym} {s : State} (hne : text ≠ []) (hidle : s.cmdReady = true)
    (hlt : ∀ b : Sym, text.count b < 2 ^ 32) :
    ∃ t replies, serveAll (mktreeCmds text) s = some (t, replies) ∧ AllOk replies ∧ CodesText text t := by
  obtain ⟨c, counted, hcnts, hok, hcount, hframe⟩ :=
    countsAreOccurrences text (clearedState s) hidle (fun _ => rfl) hlt
  have hidle' : c.cmdReady = true := by rw [hframe]; exact hidle
  have hinv : TreeWalkInv c := by rw [hframe]; exact clearedState_treeWalkInv s
  have hpos : ∀ b ∈ text, c.count b ≠ 0 := fun b hb hzero => by
    have hocc := hcount b
    rw [hzero] at hocc
    exact (List.count_pos_iff.2 hb).ne hocc
  obtain ⟨b, hb⟩ := List.exists_mem_of_ne_nil text hne
  have hclr := serve_respond (u := clearedState s) hidle (execClr_eq s)
  have hbuild := serve_respond (u := builtState c) hidle' (execBuild_of_exists ⟨b, hpos b hb⟩)
  have hderive := serve_respond (s := builtState c) (u := tableState c) hidle' (execDerive_of_tree rfl)
  have htree : serveAll [.build, .derive] c = some (tableState c, _) :=
    serveAll_cons hbuild (serveAll_cons hderive rfl)
  refine ⟨_, _, serveAll_cons hclr (serveAll_append hcnts htree), ?_,
    tableState_codesText hinv hidle' ⟨b, hpos b hb⟩ hpos⟩
  exact allOk_cons (statusOf_rspWord _ _) (allOk_append hok (allOk_cons (statusOf_rspWord _ _)
    (allOk_cons (statusOf_rspWord _ _) (List.forall_mem_nil _))))

theorem ne_enc_of_mem_mktreeCmds (text : List Sym) : ∀ i ∈ mktreeCmds text, ∀ sym, i ≠ .enc sym := by
  rintro i hi sym rfl
  simp [mktreeCmds, countsCmds] at hi

/-- Settles O38: the EO bits are those of the ENCs, the codes of the text one after another. -/
theorem roundTripReproducesText : Obligations.RoundTripReproducesText := by
  intro text s hne hidle hlt
  obtain ⟨t, made, hmake, hok, ht⟩ := serveAll_mktreeCmds hne hidle hlt
  obtain ⟨encoded, henc, hok', hbits, -⟩ := encsConcatenatesCodes text t ht.idle ht.valid
  obtain ⟨decoded, hdec, hok'', hbytes⟩ := serveAll_decsCmds ht
  have hnone := eoBits_eq_nil (ne_enc_of_mem_mktreeCmds text) ((cmdReady_iff s).1 hidle).1 hmake
  refine ⟨t, made ++ encoded, t, decoded, serveAll_append hmake henc, allOk_append hok hok', ?_, hok'', hbytes⟩
  rwa [eoBits_append, hnone, List.nil_append, hbits]

end Sys2Proof.Proofs
end

section
/-! The control commands of 45_control.md: NOP, O8 (R160), CLR, O9 (R161), and RDST, O10 (R162), which reads the status
view of 10_state.md R35. -/

namespace Sys2Proof.Proofs

open Sys2Proof.Machine Sys2Proof.Safety Sys2Proof.Laws

/-! ### NOP -/

/-- Settles O8: NOP is the response alone. -/
theorem nopChangesNothing : Obligations.NopChangesNothing :=
  ⟨noOperands_of_decodeFields fun _ _ => rfl, respond_eq 0⟩

/-! ### CLR -/

/-- CLR leaves `clearedState`, its response offered. -/
theorem execClr_clearedState (s : State) : exec .clr s = .next { clearedState s with rspPort := some 0 } :=
  (execClr_eq s).trans (respond_eq 0 (clearedState s))

/-- Settles O9: but for `NODE`, the ports and the host's fields the cleared state is the reset state, and with no tree no
entry of `NODE` can be read. -/
theorem clrReleasesEverything : Obligations.ClrReleasesEverything :=
  ⟨noOperands_of_decodeFields fun _ _ => rfl, fun s =>
    ⟨_, execClr_clearedState s, rfl, rfl, fun i hi => absurd hi (Nat.not_lt_zero i)⟩⟩

/-! ### RDST -/

/-- The response of RDST written out (30_encoding.md R83). -/
theorem statusView_setWidth (s : State) :
    s.statusView.setWidth 48 =
      (0 : BitVec 13) ++ s.cur ++ s.root ++ s.nleaf ++ s.lastErr ++ BitVec.ofBool s.degen ++ BitVec.ofBool s.mid ++
        BitVec.ofBool s.cv ++ BitVec.ofBool s.tv := rfl

theorem degen_iff (s : State) : s.degen = true ↔ s.tv = true ∧ s.nleaf = 1 := by simp [State.degen]

/-- The flags in bits 0 to 3 of the response (10_state.md R35). -/
theorem statusView_flags (s : State) :
    (s.statusView.setWidth 48).getLsbD 0 = s.tv ∧ (s.statusView.setWidth 48).getLsbD 1 = s.cv ∧
    (s.statusView.setWidth 48).getLsbD 2 = s.mid ∧ (s.statusView.setWidth 48).getLsbD 3 = s.degen := by
  simp only [statusView_setWidth, BitVec.getLsbD_append]
  simp

/-- The registers from bit 4 up of the response (10_state.md R35): each field lies above those joined on its right. -/
theorem statusView_fields (s : State) :
    (s.statusView.setWidth 48).extractLsb' 4 4 = s.lastErr ∧ (s.statusView.setWidth 48).extractLsb' 8 9 = s.nleaf ∧
    (s.statusView.setWidth 48).extractLsb' 17 9 = s.root ∧ (s.statusView.setWidth 48).extractLsb' 26 9 = s.cur ∧
    (s.statusView.setWidth 48).extractLsb' 35 13 = 0 := by
  simp (disch := decide) only [statusView_setWidth, BitVec.extractLsb'_append_eq_of_le,
    BitVec.extractLsb'_append_eq_of_add_le, BitVec.extractLsb'_eq_self, Nat.reduceSub, and_self]

theorem statusView_reset : State.reset.statusView = 0 := by decide

/-- The view reads no port. -/
theorem statusView_clearedState (s : State) (r : Option RspWord) :
    ({ clearedState s with rspPort := r } : State).statusView = 0 := statusView_reset

theorem execRdst_of_statusView_eq_zero {s : State} (h : s.statusView = 0) :
    exec .rdst s = .next { s with rspPort := some 0 } := by
  rw [execRdst_eq, h]
  exact respond_eq 0 s

/-- Settles O10: the response is the view, which is 0 once all registers are, after reset and after CLR. -/
theorem rdstReadsStatusView : Obligations.RdstReadsStatusView := by
  refine ⟨noOperands_of_decodeFields fun _ _ => rfl, fun s => ⟨_, respond_eq _ _, ?_⟩,
    execRdst_of_statusView_eq_zero statusView_reset, fun s t hclr => ?_⟩
  · obtain ⟨htv, hcv, hmid, hdegen⟩ := statusView_flags s
    rw [hdegen, degen_iff]
    exact ⟨htv, hcv, hmid, Iff.rfl, statusView_fields s⟩
  · rw [execClr_clearedState] at hclr
    cases hclr
    exact execRdst_of_statusView_eq_zero (statusView_clearedState s _)

end Sys2Proof.Proofs
end

section
/-! Failures, over all commands (60_exceptions.md): which one is reported, O41 (R173), what it changes, O42 (R174), and
what a success leaves of `LASTERR`, O43 (R178). -/

namespace Sys2Proof.Proofs

open Sys2Proof.Machine Sys2Proof.Safety Sys2Proof.Laws

/-! ### The order of the checks (R173), for a word that spells a command -/

/-- The command passes the checks of levels 2 and 3 of R173: it has the tree and the node it needs. -/
structure PassesSharedChecks (i : Instr) (s : State) : Prop where
  tree : needsTree i = true → s.tv = true
  node : ∀ idx, nodeOperand i = some idx → idx.toNat < s.nnodes

section
variable {i : Instr} {s : State}

theorem firstFailure_of_noTree (hi : needsTree i = true) (ht : s.tv = false) : firstFailure (encode i) s = 5 := by
  simp [firstFailure, decodeInvertsEncode i, hi, ht]

theorem firstFailure_of_range {idx : NodeIx} (hi : nodeOperand i = some idx) (ht : s.tv = true)
    (hle : s.nnodes ≤ idx.toNat) : firstFailure (encode i) s = 6 := by
  have htree : ¬(needsTree i = true ∧ s.tv = false) := by simp [ht]
  have hnode : ∃ idx ∈ nodeOperand i, 2 * s.nleaf.toNat - 1 ≤ idx.toNat := ⟨idx, hi, hle⟩
  simp only [firstFailure, decodeInvertsEncode i, if_neg htree, if_pos hnode]

theorem firstFailure_of_passes (h : PassesSharedChecks i s) : firstFailure (encode i) s = ownFailure s i := by
  have htree : ¬(needsTree i = true ∧ s.tv = false) := fun ⟨hi, ht⟩ => by simp [h.tree hi] at ht
  have hnode : ¬∃ idx ∈ nodeOperand i, 2 * s.nleaf.toNat - 1 ≤ idx.toNat := fun ⟨idx, hi, hle⟩ =>
    absurd (h.node idx hi) (not_lt.2 hle)
  simp only [firstFailure, decodeInvertsEncode i, if_neg htree, if_neg hnode]

end

theorem firstFailure_illegal {w : CmdWord} {e : IllegalWord} (h : decode w = .error e) (s : State) :
    firstFailure w s = 4 := by
  simp [firstFailure, h]

/-- R112's empty map as R173 states it: no byte is counted. -/
theorem ownFailure_build (s : State) : ownFailure s .build = if s.present = [] then 1 else 0 := by
  simp [ownFailure, State.present, Config.nsym]

/-! ### The answer is the one of the first failing check -/

/-- `o` answers a command executed in `s` with status `code`: a failure is `raise` in `s` itself, but for
`TRUNCATED_STREAM`, which first puts the walk back at the root (R174). -/
inductive Reports (s : State) (o : Host.Outcome State Fault Refusal) : BitVec 4 → Prop
  | succeeds {p : Payload} {u : State} (h : o = respond p u) : Reports s o 0
  | fails (st : Status) (hok : st ≠ .ok) (htrunc : st ≠ .truncatedStream) (h : o = raise st s) : Reports s o st.code
  | truncates (h : o = raise .truncatedStream s.walkToRoot) : Reports s o 3

section
variable {i : Instr} {s : State}

theorem reports_noTree (hi : needsTree i = true) (ht : s.tv = false) (h : exec i s = raise .noTree s) :
    Reports s (exec i s) (firstFailure (encode i) s) := by
  rw [firstFailure_of_noTree hi ht]
  exact .fails .noTree nofun nofun h

theorem reports_own {code : BitVec 4} (hi : PassesSharedChecks i s) (hown : ownFailure s i = code)
    (h : Reports s (exec i s) code) : Reports s (exec i s) (firstFailure (encode i) s) := by
  rwa [firstFailure_of_passes hi, hown]

/-- The two commands that read a node check the tree, then the index, and have no condition of their own. -/
theorem reports_nodeRead {idx : NodeIx} (hi : needsTree i = true) (hn : nodeOperand i = some idx)
    (hown : ownFailure s i = 0) (field : Node → Payload)
    (hsome : ∀ st, s.nodeReadFailure idx = some st → exec i s = raise st s)
    (hnone : s.nodeReadFailure idx = none → exec i s = respond (field (s.nodeAt idx.toNat)) s) :
    Reports s (exec i s) (firstFailure (encode i) s) := by
  obtain ⟨ht, hf⟩ | ⟨ht, hle, hf⟩ | ⟨ht, hlt, hf⟩ := nodeReadFailure_cases idx s
  · exact reports_noTree hi ht (hsome _ hf)
  · rw [firstFailure_of_range hn ht hle]
    exact .fails .range nofun nofun (hsome _ hf)
  · refine reports_own ⟨fun _ => ht, fun j hj => ?_⟩ hown (.succeeds (hnone hf))
    obtain rfl : idx = j := by simpa [hn] using hj
    exact hlt

end

theorem exec_reports (i : Instr) (s : State) : Reports s (exec i s) (firstFailure (encode i) s) := by
  cases i with
  | nop | clr | setf | rdst | rdf | rdcl | rdcb => exact reports_own ⟨nofun, nofun⟩ rfl (.succeeds rfl)
  | cnt sym =>
    obtain ⟨hc, h⟩ | ⟨hc, h⟩ := execCnt_cases sym s
    · exact reports_own ⟨nofun, nofun⟩ (if_pos hc) (.fails .overflow nofun nofun h)
    · exact reports_own ⟨nofun, nofun⟩ (if_neg hc) (.succeeds h)
  | build =>
    obtain ⟨hp, h⟩ | ⟨hp, h⟩ := execBuild_cases s
    · exact reports_own ⟨nofun, nofun⟩ ((ownFailure_build s).trans (if_pos hp)) (.fails .emptyInput nofun nofun h)
    · exact reports_own ⟨nofun, nofun⟩ ((ownFailure_build s).trans (if_neg hp)) (.succeeds h)
  | enc sym =>
    obtain ⟨hv, h⟩ | ⟨hv, h⟩ := execEnc_cases sym s
    · exact reports_own ⟨nofun, nofun⟩ (if_neg (by simp [hv])) (.fails .unknownSymbol nofun nofun h)
    · exact reports_own ⟨nofun, nofun⟩ (if_pos hv) (.succeeds h)
  | derive =>
    obtain ⟨ht, h⟩ | ⟨ht, h⟩ := execDerive_cases s
    · exact reports_noTree rfl ht h
    · exact reports_own ⟨fun _ => ht, nofun⟩ rfl (.succeeds h)
  | dbit bit =>
    obtain ⟨ht, h⟩ | ⟨ht, -, h⟩ | ⟨ht, -, -, h⟩ | ⟨ht, -, -, h⟩ := execDbit_cases bit s
    · exact reports_noTree rfl ht h
    all_goals exact reports_own ⟨fun _ => ht, nofun⟩ rfl (.succeeds h)
  | dend =>
    obtain ⟨ht, h⟩ | ⟨ht, hm, h⟩ | ⟨ht, hm, h⟩ := execDend_cases s
    · exact reports_noTree rfl ht h
    · exact reports_own ⟨fun _ => ht, nofun⟩ (if_pos hm) (.truncates h)
    · exact reports_own ⟨fun _ => ht, nofun⟩ (if_neg (by simp [hm])) (.succeeds h)
  | rdnl idx => exact reports_nodeRead rfl rfl rfl linksPayload (fun _ => execRdnl_some) execRdnl_none
  | rdnw idx => exact reports_nodeRead rfl rfl rfl Node.w (fun _ => execRdnw_some) execRdnw_none

theorem acceptWord_reports (w : CmdWord) (s : State) : Reports s (acceptWord w s) (firstFailure w s) := by
  cases h : decode w with
  | ok i =>
    rw [acceptWord_legal h]
    obtain rfl := decode_eq_ok_iff.1 h
    exact exec_reports i s
  | error e =>
    rw [firstFailure_illegal h]
    exact .fails .illegal nofun nofun (acceptWord_illegal h s)

/-! ### The response and the state of each answer -/

theorem statusOf_fail (st : Status) : statusOf (st.code ++ (0 : BitVec 44)) = st.code := by
  rw [← rspWord_fail, statusOf_rspWord]

theorem status_code_eq_three (st : Status) : st.code = 3 ↔ st = .truncatedStream := by cases st <;> decide

theorem Reports.response {s : State} {o : Host.Outcome State Fault Refusal} {code : BitVec 4} (h : Reports s o code) :
    ∃ t r, o = .next t ∧ t.rspPort = some r ∧ statusOf r = code := by
  cases h with
  | succeeds h => exact ⟨_, _, h, rfl, statusOf_rspWord .ok _⟩
  | fails st _ _ h => exact ⟨_, _, h, rfl, statusOf_rspWord st 0⟩
  | truncates h => exact ⟨_, _, h, rfl, statusOf_rspWord .truncatedStream _⟩

/-- Settles O41: the model's checks, taken command by command, come in the order of R173. -/
theorem firstFailingCheckIsReported : Obligations.FirstFailingCheckIsReported := fun w s =>
  (acceptWord_reports w s).response

/-- Settles O42: a failure is `raise`, in the state before or, for `TRUNCATED_STREAM`, with the walk at the root. -/
theorem failureChangesOnlyLastErr : Obligations.FailureChangesOnlyLastErr := by
  intro w s t r hw hr hne
  obtain ⟨code, h⟩ : ∃ code, Reports s (acceptWord w s) code := ⟨_, acceptWord_reports w s⟩
  rw [hw] at h
  cases h with
  | succeeds h =>
    cases h
    cases hr
    exact absurd (statusOf_rspWord .ok _) hne
  | fails st hok htrunc h =>
    rw [raise_eq] at h
    cases h
    cases hr
    rw [statusOf_fail]
    exact ⟨rfl, fun _ => rfl, fun h3 => absurd ((status_code_eq_three st).1 h3) htrunc⟩
  | truncates h =>
    rw [raise_eq] at h
    cases h
    cases hr
    rw [statusOf_fail]
    exact ⟨rfl, fun h3 => absurd rfl h3, fun _ => rfl⟩

/-! ### `LASTERR` after a success -/

/-- Of the ways a command can end, only a failure and CLR write `LASTERR`. -/
theorem Effect.lastErr_of_ok {i : Instr} {s t : State} {r : RspWord} (h : Effect i s t) (hr : t.rspPort = some r)
    (hok : statusOf r = 0) : t.lastErr = if i = .clr then 0 else s.lastErr := by
  cases h with
  | fails st hst =>
    cases hr
    rw [statusOf_rspWord, status_code_eq_zero] at hok
    exact absurd hok hst
  | truncates =>
    cases hr
    exact absurd ((statusOf_rspWord .truncatedStream 0).symm.trans hok) (by decide)
  | keeps p hc => exact (if_neg hc).symm
  | counts | sets | emits | builds | derives | reachesLeaf | reachesInternal | clears => rfl

/-- Settles O43: a word answered `OK` spells a command, and that command has succeeded. -/
theorem successKeepsLastErr : Obligations.SuccessKeepsLastErr := by
  intro w s t r hw hr hok
  cases hd : decode w with
  | error e =>
    rw [acceptWord_illegal hd] at hw
    cases hw
    cases hr
    exact absurd ((statusOf_rspWord .illegal 0).symm.trans hok) (by decide)
  | ok i =>
    rw [acceptWord_legal hd] at hw
    have hlast := (exec_effect hw).lastErr_of_ok hr hok
    refine ⟨fun hi => ?_, fun hi => ?_⟩
    · cases hi
      exact hlast
    · rwa [if_neg fun h => hi (congrArg Except.ok h)] at hlast

end Sys2Proof.Proofs
end

section
/-! Reset and hazards (70_reset_and_hazards.md): the table and its tree, O32 (R200), commands interleaved, O39 (R194),
reset between any two transfers, O59 (R190) and O60 (R191), and words of the test vectors (95_test_vectors.md), O6. -/

namespace Sys2Proof.Proofs

open Sys2Proof.Machine Sys2Proof.Safety Sys2Proof.Laws

/-! ### The table and its tree (R200) -/

/-- With no entry listed every byte is without a code (10_state.md R25). -/
theorem execEnc_failsWith_of_code_nil {s : State} (h : s.code = []) (sym : Sym) : FailsWith 2 (exec (.enc sym) s) s := by
  refine execEnc_failsWith_unknownSymbol ?_
  rw [entry_def, codeAt_def, h]
  rfl

/-- Settles O32: a successful BUILD and CLR both leave the table with no entry listed. -/
theorem tableNeverOutlivesTree : Obligations.TableNeverOutlivesTree := by
  refine fun s sym => ⟨fun t hne hbuild => ?_, fun t hclr => ?_⟩
  · cases (execBuild_of_exists hne).symm.trans hbuild
    exact execEnc_failsWith_of_code_nil rfl sym
  · cases (execClr_clearedState s).symm.trans hclr
    exact execEnc_failsWith_of_code_nil rfl sym

/-! ### Encoder and decoder interleaved (R194) -/

theorem cmdReady_of_serve {w : CmdWord} {s t : State} {r : RspWord} {bits : List Bool}
    (h : serve w s = some (t, r, bits)) : t.cmdReady = true := by
  obtain ⟨u, -, -, -, rfl⟩ := serve_eq_some h
  rfl

/-- DBIT keeps the code table (44_decoder.md R151). -/
theorem entry_of_serve_dbit {bit : Bool} {s t : State} {r : RspWord} {bits : List Bool}
    (h : serve (encode (.dbit bit)) s = some (t, r, bits)) (b : Sym) : t.entry b = s.entry b := by
  obtain ⟨u, hu, -, -, rfl⟩ := serve_eq_some h
  rw [acceptWord_legal (decodeInvertsEncode _)] at hu
  obtain ⟨-, -, hkeeps, -⟩ := onlyNamedCommandsWriteState _ _ _ hu
  obtain ⟨hcode, -⟩ := hkeeps nofun nofun nofun
  exact congrArg (cellRead codeUnlisted · b.toNat) hcode

/-- An ENC that answers `OK` has found a code. -/
theorem valid_of_serve_enc {sym : Sym} {s t : State} {r : RspWord} {bits : List Bool}
    (h : serve (encode (.enc sym)) s = some (t, r, bits)) (hok : statusOf r = 0) : (s.entry sym).valid = true := by
  obtain ⟨u, hu, hr, -, -⟩ := serve_eq_some h
  rw [acceptWord_legal (decodeInvertsEncode _)] at hu
  obtain ⟨-, he⟩ | ⟨hv, -⟩ := execEnc_cases sym s
  · cases he.symm.trans hu
    cases hr
    exact absurd ((statusOf_rspWord .unknownSymbol 0).symm.trans hok) (by decide)
  · exact hv

/-- Settles O39: ENC changes nothing that DBIT reads, and DBIT keeps the entry that ENC reads. -/
theorem encAndDbitCommute : Obligations.EncAndDbitCommute := by
  intro s t sym bit replies hidle hserve hok
  obtain ⟨u, r, bits, more, henc, hrest, rfl⟩ := exists_of_serveAll_cons hserve
  obtain ⟨hr, -⟩ := List.forall_mem_cons.1 hok
  have hv := valid_of_serve_enc henc hr
  cases (serve_enc hidle hv).symm.trans henc
  obtain ⟨v, r', bits', more', hdbit, hnil, rfl⟩ := exists_of_serveAll_cons hrest
  cases hnil
  have hentry := entry_of_serve_dbit hdbit sym
  have henc' := serve_enc (cmdReady_of_serve hdbit) (hentry ▸ hv)
  rw [hentry] at henc'
  exact serveAll_cons hdbit (serveAll_cons henc' rfl)

/-! ### Reset (R190, R191) -/

/-- Settles O59: the reset action does not look at the state or the ports. -/
theorem resetAbandonsEverything : Obligations.ResetAbandonsEverything := fun _ _ => step_reset

/-- A host that accepts `k` EO bits and then applies reset has the first `k` that waited; the others are dropped. -/
theorem run_takeEos_reset {s : State} {k : Nat} {rest : List HostAction} (hk : k ≤ s.eoPort.length)
    (hh : s.hostIn = List.replicate k .takeEo ++ .reset :: rest) :
    core.run (k + 1) s =
      .next { State.reset with hostIn := rest, outLog := s.outLog ++ (s.eoPort.take k).map PortOut.eo } := by
  have hlen : (s.eoPort.take k).length = k := List.length_take_of_le hk
  have htakes := run_takeEos (s.eoPort.take k) (s.eoPort.drop k) (.reset :: rest) 1 s
    (List.take_append_drop ..).symm (by rw [hlen, hh])
  rw [hlen] at htakes
  exact htakes.trans (run_succ (step_reset rfl) 0)

/-- The step in which the host's ENC is accepted: all digits of the code and the response wait (43_encoder.md R140). -/
theorem step_offer_enc {s : State} {sym : Sym} {rest : List HostAction} (hidle : s.cmdReady = true)
    (hv : (s.entry sym).valid = true) (hh : s.hostIn = .offerCmd (encode (.enc sym)) :: rest) :
    step s = .next { s with
      hostIn := rest
      eoPort := codeDigits (s.entry sym)
      rspPort := some (rspWord .ok (lenPayload (s.entry sym).len)) } := by
  obtain ⟨heo, -⟩ := (cmdReady_iff s).1 hidle
  rw [step_offer hh, if_pos hidle, acceptWord_hostIn, acceptWord_legal (decodeInvertsEncode _), execEnc_of_valid hv,
    State.emitEo, heo]
  rfl

/-- Settles O60: ENC puts all digits on the EO port, the host takes the first `k`, and reset drops the others with the
response that waits behind them. -/
theorem encCutShortLeavesDigitsSent : Obligations.EncCutShortLeavesDigitsSent := by
  intro s sym k rest hidle hv hk hh
  rw [run_succ (step_offer_enc hidle hv hh)]
  exact run_takeEos_reset (hk.trans_eq (codeDigits_length _).symm) rfl

/-! ### Words of the test vectors -/

/-- Settles O6: each word is the encoding of its command. -/
theorem sampleWordsDecode : Obligations.SampleWordsDecode := by
  simp only [Obligations.SampleWordsDecode, decode_eq_ok_iff]
  decide

end Sys2Proof.Proofs
end
